-- ==== Sys2Proof/Word.lean ====
section
/-! DEFINITION. The machine's word types: the widths of 00_scope.md rule R7 (`W_COORD` = 16,
`W_HANDLE` = 8, "value for this hardware") and of 10_state.md rules R21 to R27. Bits are numbered
from 0 at the least significant end (R8). -/

namespace Sys2Proof

/-- A byte: "the only unit of pixel memory" (R8), and the width of one colour intensity (R21). -/
abbrev Byte := BitVec 8

/-- A coordinate of `W_COORD` = 16 bits; `BitVec.toInt` is `sext_16` (R8, R21). -/
abbrev Coord := BitVec 16

/-- A clip end or scan position of `W_COORD` + 1 = 17 bits, signed (R25 to R27, R115). -/
abbrev Wide := BitVec 17

/-- The opaque acquisition handle, `W_HANDLE` = 8 bits (R24). -/
abbrev Handle := BitVec 8

/-- A threshold, 0..63 (R100). -/
abbrev Threshold := BitVec 6

/-- A colour level, 0..3 (R18, R141). -/
abbrev Level := BitVec 2

/-- The command descriptor of one FILL, `CMD88` (R80). -/
abbrev Descriptor := BitVec 88

end Sys2Proof
end

