-- ==== Sys2Proof/Config.lean ====
section
/-! DEFINITION. What is fixed for a deployment (00_scope.md rule R7) and the values the spec leaves
open. An `opaque` constant has no value a proof could use: a statement that mentions it holds for
every value it may have. -/

namespace Sys2Proof

/-- `PIXEL_FORMAT` (R7, R22): exactly two formats (R88). -/
inductive PixelFormat where
  | mono
  | color
  deriving DecidableEq, Repr, Inhabited

/-- The strap bit of R22 and R88: 0 selects `MONO`, 1 selects `COLOR`. -/
def PixelFormat.code : PixelFormat → BitVec 1
  | .mono => 0
  | .color => 1

/-- The format strap input of this deployment (R88, R202, U2): a parameter with "no default", so it
has no value here. Log 2. -/
opaque Config.strap : PixelFormat

/-- What the `n`-th unscripted ACQUIRE is answered: `some hd` is `GRANT(hd)`, `none` is
`UNAVAILABLE` ("any value", U3, U15; R52, R70). A free value. Log 5. -/
opaque Config.acqAnswer : Nat → Option Handle

/-- The default `BAYER` of R102: row `j` = y mod 8 down, column `i` = x mod 8 across. The table is
the deployment's parameter (U1), so statements speak of `eng.lut` of any state and this table stands
only in `State.reset`. Log 3. -/
def Config.bayer : List (List Threshold) :=
  [[0, 32, 8, 40, 2, 34, 10, 42],
   [48, 16, 56, 24, 50, 18, 58, 26],
   [12, 44, 4, 36, 14, 46, 6, 38],
   [60, 28, 52, 20, 62, 30, 54, 22],
   [3, 35, 11, 43, 1, 33, 9, 41],
   [51, 19, 59, 27, 49, 17, 57, 25],
   [15, 47, 7, 39, 13, 45, 5, 37],
   [63, 31, 55, 23, 61, 29, 53, 21]]

/-- The ROM contents, `LUT[8·j + i] = BAYER[j][i]` (R23). -/
def Config.lut : Vector Threshold 64 := ⟨⟨Config.bayer.flatten⟩, rfl⟩

end Sys2Proof
end

