-- ==== Sys2Proof/Machine/State.lean ====
section
/-! DEFINITION. The machine's state as plain data, grouped by the agent that owns it (00_scope.md
rule R11): the engine's registers (10_state.md rules R20 to R29), the target's record (R33), the
host's side of the command port (R15), and two fields of the model's own, the port trace and the
wires of the running step. `State.reset` is the machine right after reset (R36, R201). -/

namespace Sys2Proof.Machine

/-- The phase `PH` (R28): "a model should use an enumeration". -/
inductive Phase where
  /-- no command in progress -/
  | idle
  /-- command latched; about to ask the target for exclusive access -/
  | acq
  /-- access granted; about to read the buffer height and clip vertically -/
  | hgt
  /-- about to test for a remaining row, read its bounds and clip horizontally -/
  | row
  /-- about to test for a remaining column and compute and store one pixel -/
  | pix
  /-- all rows done; about to release the target -/
  | rel
  /-- status ready; about to deliver the response -/
  | rsp
  deriving DecidableEq, Repr

/-- The phase codes of R28; code 7 is never entered. -/
def Phase.code : Phase → BitVec 3
  | .idle => 0
  | .acq => 1
  | .hgt => 2
  | .row => 3
  | .pix => 4
  | .rel => 5
  | .rsp => 6

/-- The status latch's two values (R29). -/
inductive Status where
  | success
  | resourceUnavailable
  deriving DecidableEq, Repr

/-- The response bit `S` (R83). -/
def Status.code : Status → BitVec 1
  | .success => 0
  | .resourceUnavailable => 1

/-- The six kinds of transaction (R51). -/
inductive ReqKind where
  | acquire
  | release
  | height
  | rowBounds
  | rowRead
  | rowWrite
  deriving DecidableEq, Repr

/-- The request code `K` (R84). -/
def ReqKind.code : ReqKind → BitVec 3
  | .acquire => 0b000
  | .release => 0b001
  | .height => 0b010
  | .rowBounds => 0b011
  | .rowRead => 0b100
  | .rowWrite => 0b101

/-- One transaction: a request with its operands and its answer (R51 to R57). -/
inductive Txn where
  /-- ACQUIRE, answered `GRANT(hd)` (`some hd`) or `UNAVAILABLE` (`none`) (R52) -/
  | acquire (answer : Option Handle)
  /-- RELEASE (R53) -/
  | release (hd : Handle)
  /-- HEIGHT, answered with the height (R54) -/
  | height (hd : Handle) (answer : Coord)
  /-- ROW_BOUNDS of row `y`, answered with (minX, maxX) (R55) -/
  | rowBounds (hd : Handle) (y : Coord) (mn mx : Coord)
  /-- ROW_READ of offset `i` of row `y`, answered with the byte (R56) -/
  | rowRead (hd : Handle) (y i : Coord) (data : Byte)
  /-- ROW_WRITE of a byte to offset `i` of row `y` (R57) -/
  | rowWrite (hd : Handle) (y i : Coord) (data : Byte)
  deriving DecidableEq, Repr

/-- What a scripted ACQUIRE is answered. Duty T3 allows the first two and nothing else (R73). -/
inductive AcqAnswer where
  /-- `GRANT(hd)` (R52) -/
  | grant (hd : Handle)
  /-- `UNAVAILABLE` (R52) -/
  | unavailable
  /-- some other answer, which breaks duty T3 (R74) -/
  | other
  deriving DecidableEq, Repr

/-- Whether exclusive pixel-memory access is granted, to this engine or elsewhere (R33). -/
inductive Lock where
  | free
  | held
  deriving DecidableEq, Repr

/-- The pixel memory: bytes by address, in one canonical form (`Memory.wf`). -/
abbrev Memory := List Host.Cell

/-- The engine's registers (R20 to R29). In the phases in which a register "holds no value" (R35) it keeps
what was last written (DESIGN CHOICE, unsafe; log 20). -/
structure Engine where
  /-- `FMT`, the format strap sampled at reset (R22) -/
  fmt : PixelFormat
  /-- `LUT`, the threshold ROM, `LUT[8·j + i]` for row j and column i (R23) -/
  lut : Vector Threshold 64
  /-- `CX`, the rectangle's left edge (R21) -/
  cx : Coord
  /-- `CY`, the rectangle's top edge (R21) -/
  cy : Coord
  /-- `CW`, the rectangle's width (R21) -/
  cw : Coord
  /-- `CH`, the rectangle's height (R21) -/
  ch : Coord
  /-- `CR`, the red intensity (R21) -/
  cr : Byte
  /-- `CG`, the green intensity (R21) -/
  cg : Byte
  /-- `CB`, the blue intensity (R21) -/
  cb : Byte
  /-- `HD`, the acquisition handle (R24) -/
  hd : Handle
  /-- `HGT`, the buffer height (R25) -/
  hgt : Coord
  /-- `YB`, the first surviving row (R25) -/
  yb : Wide
  /-- `YE`, one past the last surviving row (R25) -/
  ye : Wide
  /-- `MINX`, the first valid column of row `PY` (R26) -/
  minx : Coord
  /-- `MAXX`, the last valid column of row `PY` (R26) -/
  maxx : Coord
  /-- `XB`, the first visible column of row `PY` (R26) -/
  xb : Wide
  /-- `XE`, one past the last visible column of row `PY` (R26) -/
  xe : Wide
  /-- `PY`, the row being worked on (R27) -/
  py : Wide
  /-- `PX`, the column being worked on (R27) -/
  px : Wide
  /-- `PH`, the phase (R28) -/
  ph : Phase
  /-- `ST`, the status latch (R29) -/
  st : Status
  deriving DecidableEq, Repr

/-- The target (R33), with what tells whether it keeps the duties of R73. -/
structure Target where
  /-- the lock (R33) -/
  lock : Lock
  /-- `avail`, what the coming ACQUIREs are answered, the next one first; where the list is empty the
  answer is the free value `Config.acqAnswer` (R33, U3) -/
  avail : List AcqAnswer
  /-- how many free answers were taken: the model's own counter of the free value -/
  asked : Nat
  /-- `height`, the answer to HEIGHT (R33) -/
  height : Coord
  /-- `bounds`, the answer (minX, maxX) to ROW_BOUNDS of rows 0, 1, 2, … (R33) -/
  bounds : List (Coord × Coord)
  /-- `mem`, the pixel memory (R33) -/
  mem : Memory
  /-- the addresses at which there is no byte (duty T7, R73): to reads and writes alike, for the whole
  run (DESIGN CHOICE, unsafe; log 21) -/
  holes : List Nat
  /-- the kinds of request the target never answers (duty T4, and T2 for RELEASE; R73). The duties speak
  of one transaction; that a whole kind is unanswered, and for the whole run, is the model's (DESIGN
  CHOICE, unsafe; log 21) -/
  silent : List ReqKind
  deriving DecidableEq, Repr

/-- The host's side of the engine: what it presents and what it was given (R15). -/
structure HostPort where
  /-- the reset input (R200) -/
  rst : Bool
  /-- the format strap input (R88, R202) -/
  strap : PixelFormat
  /-- the descriptors still to be presented, the one on the command port first (R80, R90, R208) -/
  program : List Descriptor
  /-- the responses delivered, oldest first (R83, R167) -/
  responses : List Status
  deriving DecidableEq, Repr

/-- The values that stand on combinational outputs and answer lines inside one step: "consumed in the
same step that produces them" (R30). The model's own fields, at rest between steps. Log 10. -/
structure Wires where
  /-- the answer lines of ACQUIRE, `{granted, hd}` (R84) -/
  acq : Option Handle
  /-- the answer lines of HEIGHT (R84) -/
  hgt : Coord
  /-- the answer lines of ROW_BOUNDS, minX (R84) -/
  mn : Coord
  /-- the answer lines of ROW_BOUNDS, maxX (R84) -/
  mx : Coord
  /-- the answer lines of ROW_READ (R84) -/
  data : Byte
  /-- the output of THRESH (R100) -/
  t : Threshold
  /-- the outputs of CLIPV (R110) -/
  yb : Wide
  ye : Wide
  /-- the outputs of CLIPH (R112) -/
  xb : Wide
  xe : Wide
  /-- the output of INTENS (R126) -/
  i : Byte
  /-- the output of MSCALE, 0..64 (R127) -/
  s : BitVec 7
  /-- the output of MCMP (R128) -/
  on : Bool
  /-- the output of CLEVEL (R141) -/
  level : Level
  /-- the output of CPACK (R142) -/
  packed : Byte
  deriving DecidableEq, Repr

/-- No value stands on the wires between steps (R30): each is at zero. -/
def Wires.rest : Wires :=
  { acq := none, hgt := 0, mn := 0, mx := 0, data := 0, t := 0, yb := 0, ye := 0, xb := 0, xe := 0,
    i := 0, s := 0, on := false, level := 0, packed := 0 }

/-- The whole machine. -/
structure State where
  eng : Engine
  tgt : Target
  host : HostPort
  wires : Wires
  /-- the transactions issued on the target port, oldest first (R170): the model's own record of what
  the target sees. Log 9. -/
  trace : List Txn
  deriving DecidableEq, Repr

/-- Why the machine is stuck. -/
inductive Fault where
  /-- Raised by every target request, and by a phase of FILL that issues one, when the target never
  answers a request of this kind (duty T4; T2 for RELEASE): "stuck in the phase that issued the
  request, for ever" (R74, U4b). Safe: no claim is made about such a run beyond this. -/
  | noAnswer (k : ReqKind)
  deriving DecidableEq, Repr

/-- Why the model refuses to go on. -/
inductive Refusal where
  /-- Raised by `exec` alone, for an instruction that has no meaning yet. Safe. -/
  | notModelled (mnemonic : String)
  /-- Raised by ACQUIRE (and FILL in phase ACQ) when the target grants while its lock is HELD, which
  breaks duty T1 (R73, R74: "refuse"). Safe. -/
  | grantWhileHeld
  /-- Raised by ACQUIRE (and FILL in phase ACQ) when the answer is neither GRANT nor UNAVAILABLE,
  which breaks duty T3 (R74: "refuse"). Safe. -/
  | otherAnswer
  /-- Raised by ROW_BOUNDS (and FILL in phase ROW) when the target answers minX < 0, which breaks
  duty T6 (R74: "refuse"). Safe. -/
  | negativeMinX
  /-- Raised by ROW_READ, ROW_WRITE and MPACK (and FILL in phase PIX) at an address where the target
  has no byte, which breaks duty T7 (R74: "refuse"). Safe. -/
  | noByte
  /-- Raised by MPACK (and FILL in phases ROW and PIX) for a row or an offset outside
  0 .. 2^15 − 1: the port never carries one (R62, R84), and only a broken duty T6 or a state that no
  run reaches asks for it (R74: "refuse"). Safe. -/
  | outsidePort
  /-- Raised by `step` when reset is asserted while a fill is in progress, in every phase but IDLE:
  "forbidden to the host" (R15, R204), "the model has no reset move while `PH ≠ IDLE`" (U5: "refuse";
  D21). Safe: no claim is made about such a run. -/
  | resetDuringFill
  deriving DecidableEq, Repr

/-- The engine after reset with this strap and ROM: PH = IDLE, ST = 0, FMT = the strap (R36, R201);
the working registers, "unspecified", are 0 (DESIGN CHOICE, unsafe; log 1). -/
def Engine.reset (strap : PixelFormat) (lut : Vector Threshold 64) : Engine :=
  { fmt := strap, lut := lut, cx := 0, cy := 0, cw := 0, ch := 0, cr := 0, cg := 0, cb := 0, hd := 0,
    hgt := 0, yb := 0, ye := 0, minx := 0, maxx := 0, xb := 0, xe := 0, py := 0, px := 0,
    ph := .idle, st := .success }

/-- The target that stands beside the machine at `State.reset`: the engine's reset does not say what
it holds (R36, R203), so every field is the model's (DESIGN CHOICE, unsafe; log 4, log 5, log 7). -/
def Target.initial : Target :=
  { lock := .free, avail := [], asked := 0, height := 0, bounds := [], mem := [], holes := [],
    silent := [] }

/-- The host at `State.reset`: reset released, the deployment's strap, nothing presented, no response
pending (R200, R201). -/
def HostPort.initial : HostPort :=
  { rst := false, strap := Config.strap, program := [], responses := [] }

/-- The machine right after reset (R36, R201). -/
def State.reset : State :=
  { eng := Engine.reset Config.strap Config.lut, tgt := Target.initial, host := HostPort.initial,
    wires := Wires.rest, trace := [] }

end Sys2Proof.Machine
end

