-- ==== Sys2Proof/Machine/Flags.lean ====
section
/-! DEFINITION. The engine stores no flag (10_state.md rule R30). These are its comparator outputs,
combinational values that the step that makes them uses. Every comparison is unsigned and strict
(42_pixel_mono.md rule R128, 43_pixel_color.md rule R141, C8). -/

namespace Sys2Proof.Machine

/-- `on` of MCMP: the scaled intensity strictly exceeds the threshold (R128). -/
def exceeds (s : BitVec 7) (t : Threshold) : Bool := decide (t.toNat < s.toNat)

/-- `s` of CLEVEL: the scaled remainder `(64·(c mod 85)) div 85` (R141). -/
def scaledRemainder (c : Byte) : Nat := 64 * (c.toNat % 85) / 85

/-- `inc` of CLEVEL: the scaled remainder strictly exceeds the threshold (R141). -/
def increments (c : Byte) (t : Threshold) : Bool := decide (t.toNat < scaledRemainder c)

/-- A row remains: `PY < YE`, the test of phase ROW (R164). -/
def rowRemains (e : Engine) : Bool := decide (e.py.toInt < e.ye.toInt)

/-- A column remains: `PX < XE`, the test of phase PIX (R165). -/
def columnRemains (e : Engine) : Bool := decide (e.px.toInt < e.xe.toInt)

end Sys2Proof.Machine
end

