-- ==== Sys2Proof/Machine/Operands.lean ====
section
/-! DEFINITION. Operand forms: where a pixel lies (20_memory.md rules R59 to R61), what a row or an
offset becomes on the target port (30_encoding.md rule R84), the ROM address of a pixel (R87), and
the width of a clip result (41_region_clipper.md rule R115). -/

namespace Sys2Proof.Machine

/-- A 17-bit register for an exact clip result: R115 shows every such result fits. -/
def toWide (v : Int) : Wide := BitVec.ofInt 17 v

/-- A row or an offset on the target port: `none` outside 0 .. 2^15 − 1 (R62, R84). -/
def toPort (v : Int) : Option Coord :=
  if 0 ≤ v ∧ v < 32768 then some (BitVec.ofInt 16 v) else none

/-- `MONO`: the byte offset of column `x` (R59). -/
def monoOffset (x : Int) : Int := x / 8

/-- `MONO`: the bit of column `x` in its byte, bit 0 leftmost (R58, R59). -/
def monoBit (x : Int) : Nat := (x % 8).toNat

/-- `COLOR`: the byte offset of column `x` (R60). -/
def colorOffset (x : Int) : Int := x

/-- The byte offset of column `x` in this format, from column 0 of the buffer (R59 to R61). -/
def pixelOffset : PixelFormat → Int → Int
  | .mono, x => monoOffset x
  | .color, x => colorOffset x

/-- The ROM address of the pixel at column `x`, row `y`: `8·(y mod 8) + (x mod 8)` (R87, R100). -/
def romAddress (x y : Int) : BitVec 6 := BitVec.ofNat 6 (8 * (y % 8) + x % 8).toNat

/-- The memory key of the byte at offset `i` of row `y`: the pair is the address (R32), kept as one
number, the two 16-bit port fields side by side (DESIGN CHOICE, safe; log 7). -/
def byteAddress (y i : Coord) : Nat := y.toNat * 65536 + i.toNat

end Sys2Proof.Machine
end

