-- ==== Sys2Proof/Machine/Ops.lean ====
section
/-! DEFINITION. The named operations over memory, the target port and the registers, and taking the
one exception with the response that ends a command (60_exceptions.md rules R180, R185, R186). -/

namespace Sys2Proof.Machine

/-- One step's outcome. -/
abbrev Result := Host.Outcome State Fault Refusal

/-- Go on from a next state; a fault or a refusal stays. -/
def andThen (r : Result) (k : State → Result) : Result :=
  match r with
  | .next s => k s
  | .fault f => .fault f
  | .refused x => .refused x

/-! ## Memory -/

/-- What a byte that memory does not list reads as (DESIGN CHOICE, unsafe; log 7). -/
def Memory.blank : Byte := 0

/-- The byte at an address (R56, R64). -/
def Memory.read : Memory → Nat → Byte
  | [], _ => Memory.blank
  | (b, v) :: m, a => if b = a then v else Memory.read m a

/-- A listed byte, unless it is what an unlisted address reads as. -/
def Memory.keep (a : Nat) (v : Byte) (m : Memory) : Memory :=
  if v = Memory.blank then m else (a, v) :: m

/-- One byte changed, no other (R57), in canonical form. -/
def Memory.write : Memory → Nat → Byte → Memory
  | [], a, v => Memory.keep a v []
  | (b, u) :: m, a, v =>
    if a < b then Memory.keep a v ((b, u) :: m)
    else if a = b then Memory.keep a v m
    else (b, u) :: Memory.write m a v

/-- Every listed address is above `a`. -/
def Memory.above (a : Nat) (m : Memory) : Bool := m.all fun c => decide (a < c.1)

/-- The canonical form: addresses strictly rising, no entry equal to what an unlisted address reads
as. -/
def Memory.wf : Memory → Bool
  | [] => true
  | (b, v) :: m => decide (v ≠ Memory.blank) && Memory.above b m && Memory.wf m

/-! ## The target -/

/-- The range of a row the target lists none for: no valid pixel (R55, `minX > maxX`; DESIGN CHOICE,
safe; log 6). -/
def emptyRow : Coord × Coord := (0, -1)

/-- The answer (minX, maxX) to ROW_BOUNDS of row `y` (R33, R55). -/
def Target.boundsAt (t : Target) (y : Nat) : Coord × Coord := t.bounds.getD y emptyRow

/-- There is a byte at this address (duty T7, R73). -/
def Target.hasByte (t : Target) (a : Nat) : Bool := !t.holes.contains a

/-- The target with one byte of pixel memory changed (R57). -/
def Target.store (t : Target) (a : Nat) (v : Byte) : Target :=
  { t with mem := Memory.write t.mem a v }

/-- The lock after an ACQUIRE: HELD on GRANT, unchanged on UNAVAILABLE (R52). -/
def Lock.afterAcquire (l : Lock) : Option Handle → Lock
  | some _ => .held
  | none => l

/-- The free answer to an unscripted ACQUIRE: while the lock is HELD duty T1 leaves only UNAVAILABLE
(R73, R192), otherwise any (U3). -/
def Target.freeAnswer (t : Target) : Option Handle :=
  match t.lock with
  | .held => none
  | .free => Config.acqAnswer t.asked

/-! ## One step's wires and trace -/

/-- Drive the wires of the running step. -/
def State.drive (s : State) (w : Wires) : State := { s with wires := w }

/-- Put the target in a new state. -/
def State.retarget (s : State) (t : Target) : State := { s with tgt := t }

/-- Put the engine's registers in a new state. -/
def State.latch (s : State) (e : Engine) : State := { s with eng := e }

/-- Add one transaction to the trace (R170). -/
def State.record (s : State) (x : Txn) : State := { s with trace := s.trace ++ [x] }

/-- The step is over: no value stands on a wire any more (R30). -/
def State.settle (s : State) : State := s.drive Wires.rest

/-- A request is served unless the target never answers its kind (duties T2, T4; R74). Which requests of
a target that breaks them stay unanswered is open: here all of a kind (DESIGN CHOICE, unsafe; log 21). -/
def serve (k : ReqKind) (s : State) (r : Result) : Result :=
  if s.tgt.silent.contains k then .fault (.noAnswer k) else r

/-- ACQUIRE answered: the lock, the answer lines and the trace (R52). -/
def State.answerAcquire (s : State) (t : Target) (answer : Option Handle) : State :=
  ((s.retarget { t with lock := t.lock.afterAcquire answer }).drive
    { s.wires with acq := answer }).record (.acquire answer)

/-- GRANT: refused while the lock is HELD (duty T1; R74). -/
def State.grant (s : State) (t : Target) (hd : Handle) : Result :=
  match t.lock with
  | .held => .refused .grantWhileHeld
  | .free => .next (s.answerAcquire t (some hd))

/-- Store one byte of row `y`, offset `i`, under handle `hd` (R57). -/
def State.storeByte (s : State) (hd : Handle) (y i : Coord) (v : Byte) : State :=
  (s.retarget (s.tgt.store (byteAddress y i) v)).record (.rowWrite hd y i v)

/-- Read one byte of row `y`, offset `i`, under handle `hd`, onto the answer lines (R56). -/
def State.loadByte (s : State) (hd : Handle) (y i : Coord) : State :=
  (s.drive { s.wires with data := Memory.read s.tgt.mem (byteAddress y i) }).record
    (.rowRead hd y i (Memory.read s.tgt.mem (byteAddress y i)))

/-- An access needs a byte at its address (duty T7; R74). -/
def withByte (s : State) (y i : Coord) (r : Result) : Result :=
  if s.tgt.hasByte (byteAddress y i) then r else .refused .noByte

/-- A row and an offset as the port carries them (R62, R84). -/
def withPort (y i : Int) (k : Coord → Coord → Result) : Result :=
  match toPort y, toPort i with
  | some y, some i => k y i
  | _, _ => .refused .outsidePort

/-! ## The exception and the end of a command -/

/-- `raise ResourceUnavailable`: `ST <- 1 ; PH <- RSP`, nothing saved, nothing else changed (R180,
R185). -/
def State.raiseResourceUnavailable (s : State) : State :=
  s.latch { s.eng with st := .resourceUnavailable, ph := .rsp }

/-- The response `S = ST` is delivered and the engine is IDLE again; there is no other return from
the exception (R167, R186). The working registers are then dead, with "any value" in them (R35, U6): the
model keeps the last fill's (DESIGN CHOICE, unsafe; log 20). -/
def State.respond (s : State) : State :=
  { s with eng := { s.eng with ph := .idle }
           host := { s.host with responses := s.host.responses ++ [s.eng.st] } }

/-! ## Reset -/

/-- The engine's reset: the registers of R201 with the strap as it stands, the ROM, the target and
the host's descriptors untouched (R202, R203), the reset input released. -/
def State.resetEngine (s : State) : State :=
  { s with eng := Engine.reset s.host.strap s.eng.lut
           host := { s.host with rst := false }
           wires := Wires.rest }

/-- Reset asserted: the idle engine is reset (R200, R201); while a fill is in progress it is "forbidden
to the host" (R15, R204) and "the model has no reset move while `PH ≠ IDLE`" (U5, D21). -/
def State.underReset (s : State) : Result :=
  match s.eng.ph with
  | .idle => .next s.resetEngine
  | .acq => .refused .resetDuringFill
  | .hgt => .refused .resetDuringFill
  | .row => .refused .resetDuringFill
  | .pix => .refused .resetDuringFill
  | .rel => .refused .resetDuringFill
  | .rsp => .refused .resetDuringFill

end Sys2Proof.Machine
end

