-- ==== Sys2Proof/Machine/Clipper.lean ====
section
/-! DEFINITION. RegionClipper: the vertical and the horizontal clip, exact on integers
(41_region_clipper.md). -/

namespace Sys2Proof.Machine

/-- `CLIPV(y, h, H) = (max(y, 0), min(y + h, H))` (R110). -/
def clipV (y h bufH : Int) : Int × Int := (max y 0, min (y + h) bufH)

/-- `CLIPH(x, w, mn, mx) = (max(x, mn), min(x + w, mx + 1))` (R112). -/
def clipH (x w mn mx : Int) : Int × Int := (max x mn, min (x + w) (mx + 1))

/-- CLIPV (R110): the row range on its outputs, 17 bits each (R115); no transaction (R119). -/
def execClipV (y h bufH : Coord) (s : State) : Result :=
  .next (s.drive { s.wires with yb := toWide (clipV y.toInt h.toInt bufH.toInt).1
                                ye := toWide (clipV y.toInt h.toInt bufH.toInt).2 })

/-- CLIPH (R112): the column range on its outputs, 17 bits each (R115); no transaction (R119). -/
def execClipH (x w mn mx : Coord) (s : State) : Result :=
  .next (s.drive { s.wires with xb := toWide (clipH x.toInt w.toInt mn.toInt mx.toInt).1
                                xe := toWide (clipH x.toInt w.toInt mn.toInt mx.toInt).2 })

end Sys2Proof.Machine
end

