-- ==== Sys2Proof/Machine/Matrix.lean ====
section
/-! DEFINITION. DitherMatrix: the threshold lookup (40_dither_matrix.md). -/

namespace Sys2Proof.Machine

/-- `T(x, y) = LUT[8·(y mod 8) + (x mod 8)]`, column `x` and row `y`, for every integer pair (R100);
it reads the ROM and nothing else (R104). -/
def threshold (lut : Vector Threshold 64) (x y : Int) : Threshold := lut.get (romAddress x y).toFin

/-- THRESH (R100): the threshold on its output; no state written. -/
def execThresh (x y : Int) (s : State) : Result :=
  .next (s.drive { s.wires with t := threshold s.eng.lut x y })

end Sys2Proof.Machine
end

