-- ==== Sys2Proof/Machine/TargetPort.lean ====
section
/-! DEFINITION. The six transactions of the target port (20_memory.md rules R52 to R57): the request
with its operands, the effect on the target, and the answer on the answer lines. Each is one entry of
the trace (R51). -/

namespace Sys2Proof.Machine

/-- ACQUIRE (R52): the next scripted answer, or a free one where none is scripted (U3). -/
def execAcquire (s : State) : Result :=
  serve .acquire s
    (match s.tgt.avail with
     | [] => .next (s.answerAcquire { s.tgt with asked := s.tgt.asked + 1 } s.tgt.freeAnswer)
     | .grant hd :: rest => s.grant { s.tgt with avail := rest } hd
     | .unavailable :: rest => .next (s.answerAcquire { s.tgt with avail := rest } none)
     | .other :: _ => .refused .otherAnswer)

/-- RELEASE (R53): the lock becomes FREE. -/
def execRelease (hd : Handle) (s : State) : Result :=
  serve .release s (.next ((s.retarget { s.tgt with lock := .free }).record (.release hd)))

/-- HEIGHT (R54): no effect on the target. -/
def execHeight (hd : Handle) (s : State) : Result :=
  serve .height s
    (.next ((s.drive { s.wires with hgt := s.tgt.height }).record (.height hd s.tgt.height)))

/-- ROW_BOUNDS (R55): no effect on the target; an answer with minX < 0 breaks duty T6 (R74). -/
def execRowBounds (hd : Handle) (y : Coord) (s : State) : Result :=
  serve .rowBounds s
    (if (s.tgt.boundsAt y.toNat).1.toInt < 0 then .refused .negativeMinX
     else
      .next ((s.drive { s.wires with mn := (s.tgt.boundsAt y.toNat).1
                                     mx := (s.tgt.boundsAt y.toNat).2 }).record
        (.rowBounds hd y (s.tgt.boundsAt y.toNat).1 (s.tgt.boundsAt y.toNat).2)))

/-- ROW_READ, `MemRead((y, i), 1)` (R56): the byte on the answer lines, no effect on the target. -/
def execRowRead (hd : Handle) (y i : Coord) (s : State) : Result :=
  serve .rowRead s (withByte s y i (.next (s.loadByte hd y i)))

/-- ROW_WRITE, `MemWrite((y, i), 1, v)` (R57): that byte becomes `v`, no other changes. -/
def execRowWrite (hd : Handle) (y i : Coord) (data : Byte) (s : State) : Result :=
  serve .rowWrite s (withByte s y i (.next (s.storeByte hd y i data)))

end Sys2Proof.Machine
end

