-- ==== Sys2Proof/Machine/Color.lean ====
section
/-! DEFINITION. The packed-colour pixel path (43_pixel_color.md): CLEVEL, CPACK and the store. -/

namespace Sys2Proof.Machine

/-- `CLEVEL(c, t) = min(c div 85 + inc, 3)` (R141). -/
def level (c : Byte) (t : Threshold) : Level :=
  BitVec.ofNat 2 (min (c.toNat / 85 + (increments c t).toNat) 3)

/-- `CPACK(lr, lg, lb) = {0b11, lr, lg, lb}` (R86, R142). -/
def pack (lr lg lb : Level) : Byte := 0b11#2 ++ lr ++ lg ++ lb

/-- The byte a colour fill of (r, g, b) gives a pixel of threshold `t`: one threshold for the three
channels (R106, R140). -/
def colorByte (r g b : Byte) (t : Threshold) : Byte := pack (level r t) (level g t) (level b t)

/-- CLEVEL (R141). -/
def execClevel (c : Byte) (t : Threshold) (s : State) : Result :=
  .next (s.drive { s.wires with level := level c t })

/-- CPACK (R142). -/
def execCpack (lr lg lb : Level) (s : State) : Result :=
  .next (s.drive { s.wires with packed := pack lr lg lb })

/-- `color_pixel(PX, PY, CR, CG, CB)` (R140): one lookup, three lanes, one ROW_WRITE and no read
(R143). -/
def colorPixel (s : State) : Result :=
  andThen (execThresh s.eng.px.toInt s.eng.py.toInt s) fun s =>
  andThen (execClevel s.eng.cr s.wires.t s) fun sr =>
  andThen (execClevel sr.eng.cg sr.wires.t sr) fun sg =>
  andThen (execClevel sg.eng.cb sg.wires.t sg) fun sb =>
  andThen (execCpack sr.wires.level sg.wires.level sb.wires.level sb) fun s =>
  withPort s.eng.py.toInt (colorOffset s.eng.px.toInt) fun row i =>
    execRowWrite s.eng.hd row i s.wires.packed s

end Sys2Proof.Machine
end

