-- ==== Sys2Proof/Machine/Mono.lean ====
section
/-! DEFINITION. The monochrome pixel path (42_pixel_mono.md): INTENS, MSCALE, MCMP, MPACK. -/

namespace Sys2Proof.Machine

/-- `INTENS(r, g, b) = (3·r + 4·g + 1·b) div 8` (R126). -/
def intensity (r g b : Byte) : Byte := BitVec.ofNat 8 ((3 * r.toNat + 4 * g.toNat + b.toNat) / 8)

/-- `MSCALE(I) = (64·I) div 255`, 0..64 (R127). -/
def scaled (i : Byte) : BitVec 7 := BitVec.ofNat 7 (64 * i.toNat / 255)

/-- The byte with bit `k` set or cleared and the seven others kept (R129). -/
def mergeBit (old : Byte) (k : Nat) (on : Bool) : Byte :=
  if on then old ||| (1#8 <<< k) else old &&& ~~~(1#8 <<< k)

/-- The bit a monochrome fill of colour (r, g, b) gives a pixel of threshold `t` (R125, R130). -/
def monoOn (r g b : Byte) (t : Threshold) : Bool := exceeds (scaled (intensity r g b)) t

/-- INTENS (R126). -/
def execIntens (r g b : Byte) (s : State) : Result :=
  .next (s.drive { s.wires with i := intensity r g b })

/-- MSCALE (R127). -/
def execMscale (i : Byte) (s : State) : Result :=
  .next (s.drive { s.wires with s := scaled i })

/-- MCMP (R128). -/
def execMcmp (v : BitVec 7) (t : Threshold) (s : State) : Result :=
  .next (s.drive { s.wires with on := exceeds v t })

/-- MPACK (R129): one ROW_READ and one ROW_WRITE of the byte that holds column `x` of row `y`, only
bit `x mod 8` differing; the write is issued even where nothing changes. -/
def execMpack (x y : Wide) (on : Bool) (s : State) : Result :=
  withPort y.toInt (monoOffset x.toInt) fun row i =>
    andThen (execRowRead s.eng.hd row i s) fun s =>
      execRowWrite s.eng.hd row i (mergeBit s.wires.data (monoBit x.toInt) on) s

/-- `mono_pixel(PX, PY, CR, CG, CB)` (R125). -/
def monoPixel (s : State) : Result :=
  andThen (execThresh s.eng.px.toInt s.eng.py.toInt s) fun s =>
  andThen (execIntens s.eng.cr s.eng.cg s.eng.cb s) fun s =>
  andThen (execMscale s.wires.i s) fun s =>
  andThen (execMcmp s.wires.s s.wires.t s) fun s =>
  execMpack s.eng.px s.eng.py s.wires.on s

end Sys2Proof.Machine
end

