-- ==== Sys2Proof/Machine/Fill.lean ====
section
/-! DEFINITION. DitherFill: the FILL command as the phase machine of 44_fill.md (R160 to R168). One
`exec` of FILL is ONE step of the engine while that command stands on the command port: in IDLE the
command is accepted (R161); in every other phase the fill in progress goes on with its latched
operands, and the command that stands on the port is "neither lost nor queued" and waits (R208, U19).
The operands of a fill in progress do not change (R21). -/

namespace Sys2Proof.Machine

/-- Phase IDLE: accept a command; no transaction (R161, R81). -/
def phaseIdle (x y w h : Coord) (r g b : Byte) (s : State) : Result :=
  .next (s.latch { s.eng with cx := x, cy := y, cw := w, ch := h, cr := r, cg := g, cb := b,
                              ph := .acq }).settle

/-- The two outcomes of phase ACQ: `HD <- hd ; PH <- HGT`, or the exception (R162). -/
def State.afterAcquire (s : State) : State :=
  match s.wires.acq with
  | some hd => s.latch { s.eng with hd := hd, ph := .hgt }
  | none => s.raiseResourceUnavailable

/-- Phase ACQ: acquire (R162). -/
def phaseAcq (s : State) : Result :=
  andThen (execAcquire s) fun s => .next s.afterAcquire.settle

/-- Phase HGT: height and vertical clip (R163). -/
def phaseHgt (s : State) : Result :=
  andThen (execHeight s.eng.hd s) fun s =>
  andThen (execClipV s.eng.cy s.eng.ch s.wires.hgt s) fun s =>
  .next (s.latch { s.eng with hgt := s.wires.hgt, yb := s.wires.yb, ye := s.wires.ye,
                              py := s.wires.yb, ph := .row }).settle

/-- A row remains: its bounds and its horizontal clip (R164). -/
def openRow (s : State) : Result :=
  withPort s.eng.py.toInt 0 fun y _ =>
  andThen (execRowBounds s.eng.hd y s) fun s =>
  andThen (execClipH s.eng.cx s.eng.cw s.wires.mn s.wires.mx s) fun s =>
  .next (s.latch { s.eng with minx := s.wires.mn, maxx := s.wires.mx, xb := s.wires.xb,
                              xe := s.wires.xe, px := s.wires.xb, ph := .pix }).settle

/-- Phase ROW: next row, its bounds, horizontal clip (R164). -/
def phaseRow (s : State) : Result :=
  if rowRemains s.eng then openRow s
  else .next (s.latch { s.eng with ph := .rel }).settle

/-- The pixel operation of the format (R157, R165). -/
def pixel (s : State) : Result :=
  match s.eng.fmt with
  | .mono => monoPixel s
  | .color => colorPixel s

/-- Phase PIX: one pixel (R165). -/
def phasePix (s : State) : Result :=
  if columnRemains s.eng then
    andThen (pixel s) fun s => .next (s.latch { s.eng with px := s.eng.px + 1, ph := .pix }).settle
  else .next (s.latch { s.eng with py := s.eng.py + 1, ph := .row }).settle

/-- Phase REL: release (R166). -/
def phaseRel (s : State) : Result :=
  andThen (execRelease s.eng.hd s) fun s =>
  .next (s.latch { s.eng with st := .success, ph := .rsp }).settle

/-- Phase RSP: respond; no transaction (R167). -/
def phaseRsp (s : State) : Result := .next s.respond.settle

/-- `FILL x, y, w, h, r, g, b` (R155): one step of the phase machine (R160 to R168). -/
def execFill (x y w h : Coord) (r g b : Byte) (s : State) : Result :=
  match s.eng.ph with
  | .idle => phaseIdle x y w h r g b s
  | .acq => phaseAcq s
  | .hgt => phaseHgt s
  | .row => phaseRow s
  | .pix => phasePix s
  | .rel => phaseRel s
  | .rsp => phaseRsp s

/-- `FILLGRAY x, y, w, h, v`: the FILL it expands to (R91, R146). -/
def execFillGray (x y w h : Coord) (v : Byte) (s : State) : Result := execFill x y w h v v v s

end Sys2Proof.Machine
end

