-- ==== Sys2Proof/Syntax.lean ====
section
/-! DEFINITION. The operations of the engine: one constructor per row of spec/opcode_table.json
(30_encoding.md rule R92). Only `fill` (and its pseudo-form `fillGray`) is issued by the host; the
target requests are issued by the engine; the datapath operations are performed inside FILL (R13). -/

namespace Sys2Proof

inductive Instr where
  /-- `FILL x, y, w, h, r, g, b` (R155, R80). -/
  | fill (x y w h : Coord) (r g b : Byte)
  /-- `FILLGRAY x, y, w, h, v`, the pseudo-command of R91. -/
  | fillGray (x y w h : Coord) (v : Byte)
  /-- ACQUIRE, no operands (R52). -/
  | acquire
  /-- RELEASE with the handle (R53). -/
  | release (hd : Handle)
  /-- HEIGHT with the handle (R54). -/
  | height (hd : Handle)
  /-- ROW_BOUNDS with the handle and the row (R55). -/
  | rowBounds (hd : Handle) (y : Coord)
  /-- ROW_READ with the handle, the row and the offset (R56). -/
  | rowRead (hd : Handle) (y i : Coord)
  /-- ROW_WRITE with the handle, the row, the offset and the byte (R57). -/
  | rowWrite (hd : Handle) (y i : Coord) (data : Byte)
  /-- THRESH of column `x` and row `y`; "defined for every integer pair" (R100). -/
  | thresh (x y : Int)
  /-- CLIPV of the top edge, the rectangle's height and the buffer's height (R110). -/
  | clipV (y h bufH : Coord)
  /-- CLIPH of the left edge, the width and the row's bounds (R112). -/
  | clipH (x w mn mx : Coord)
  /-- INTENS of the three intensities (R126). -/
  | intens (r g b : Byte)
  /-- MSCALE of the scalar intensity (R127). -/
  | mscale (i : Byte)
  /-- MCMP of the scaled intensity, 0..64, and the threshold (R128). -/
  | mcmp (s : BitVec 7) (t : Threshold)
  /-- MPACK of the pixel's column and row and its bit (R129). -/
  | mpack (x y : Wide) (on : Bool)
  /-- CLEVEL of one channel and the threshold (R141). -/
  | clevel (c : Byte) (t : Threshold)
  /-- CPACK of the three levels (R142). -/
  | cpack (lr lg lb : Level)
  deriving DecidableEq, Repr

end Sys2Proof
end

