-- ==== Sys2Proof/Machine/Dispatch.lean ====
section
/-! DEFINITION. One arm per operation of spec/opcode_table.json: each calls its own meaning. -/

namespace Sys2Proof.Machine

def exec (i : Instr) (s : State) : Host.Outcome State Fault Refusal :=
  match i with
  | .fill x y w h r g b => Sys2Proof.Machine.execFill x y w h r g b s
  | .fillGray x y w h v => Sys2Proof.Machine.execFillGray x y w h v s
  | .acquire => Sys2Proof.Machine.execAcquire s
  | .release hd => Sys2Proof.Machine.execRelease hd s
  | .height hd => Sys2Proof.Machine.execHeight hd s
  | .rowBounds hd y => Sys2Proof.Machine.execRowBounds hd y s
  | .rowRead hd y o => Sys2Proof.Machine.execRowRead hd y o s
  | .rowWrite hd y o data => Sys2Proof.Machine.execRowWrite hd y o data s
  | .thresh x y => Sys2Proof.Machine.execThresh x y s
  | .clipV y h bufH => Sys2Proof.Machine.execClipV y h bufH s
  | .clipH x w mn mx => Sys2Proof.Machine.execClipH x w mn mx s
  | .intens r g b => Sys2Proof.Machine.execIntens r g b s
  | .mscale v => Sys2Proof.Machine.execMscale v s
  | .mcmp v t => Sys2Proof.Machine.execMcmp v t s
  | .mpack x y on => Sys2Proof.Machine.execMpack x y on s
  | .clevel c t => Sys2Proof.Machine.execClevel c t s
  | .cpack lr lg lb => Sys2Proof.Machine.execCpack lr lg lb s

end Sys2Proof.Machine
end

