-- ==== Sys2Proof/WellFormed.lean ====
section
/-! DEFINITION. Which operand values the spec gives an operation. Every FILL is legal (30_encoding.md
rule R82); a row or an offset on the target port is in 0 .. 2^15 − 1 (R84); a scaled intensity is in
0..64 (R128); MPACK stores a visible pixel, whose column and row the port can carry (R62, R129). -/

namespace Sys2Proof

/-- A row number or byte offset as the port carries it: non-negative read as signed (R62, R84). -/
def Coord.onPort (v : Coord) : Bool := decide (0 ≤ v.toInt)

/-- A column or row of a visible pixel: in 0 .. 2^15 − 1 (R27, R84). -/
def Wide.onPort (v : Wide) : Bool := decide (0 ≤ v.toInt ∧ v.toInt < 32768)

/-- The operands lie in the ranges the spec gives them. -/
def Instr.wellFormed : Instr → Bool
  | .fill _ _ _ _ _ _ _ => true
  | .fillGray _ _ _ _ _ => true
  | .acquire => true
  | .release _ => true
  | .height _ => true
  | .rowBounds _ y => y.onPort
  | .rowRead _ y i => y.onPort && i.onPort
  | .rowWrite _ y i _ => y.onPort && i.onPort
  | .thresh _ _ => true
  | .clipV _ _ _ => true
  | .clipH _ _ _ _ => true
  | .intens _ _ _ => true
  | .mscale _ => true
  | .mcmp s _ => decide (s ≤ 64)
  | .mpack x y _ => x.onPort && y.onPort
  | .clevel _ _ => true
  | .cpack _ _ _ => true

end Sys2Proof
end

