-- ==== Sys2Proof/Decode.lean ====
section
/-! DEFINITION. The decoder and the encoder (30_encoding.md). Two ports carry encoded operations: the
command port carries one 88-bit descriptor (R80), the target port a request of a 3-bit code `K` with
its operands (R84). The datapath operations have "no selector bits" and no encoding (R92). -/

namespace Sys2Proof

/-- The bits of one request on the target port: the code `K` of R84 in bits 2:0 and above it the
operands it may send, `hd` in 10:3, `y` in 26:11, `i` in 42:27, `data` in 50:43. R84 gives the code
and the operands' widths and no layout of the operands: the layout is the model's (DESIGN CHOICE,
safe: nothing observable depends on it). Log 14. -/
abbrev RequestWord := BitVec 51

/-- What stands on a port of the engine. -/
inductive PortWord where
  /-- the descriptor on the command port (R80) -/
  | command (d : Descriptor)
  /-- a request on the target port (R84) -/
  | request (q : RequestWord)
  deriving DecidableEq, Repr

/-- Why a request word is no request of the engine. -/
inductive DecodeError where
  /-- the codes `0b110` and `0b111`: "the engine never issues these codes" (R84, U11) -/
  | reservedCode (k : BitVec 3)
  /-- a bit set where the request's kind sends no operand (R84, "operands sent") -/
  | strayOperand (k : BitVec 3)
  /-- a row or an offset outside 0 .. 2^15 − 1, which the engine never sends (R84) -/
  | negativeOperand (k : BitVec 3)
  deriving DecidableEq, Repr

/-- The FILL a descriptor holds: the identity on fields, total (R80, R81, R82). -/
def decodeCommand (d : Descriptor) : Instr :=
  .fill (d.extractLsb' 0 16) (d.extractLsb' 16 16) (d.extractLsb' 32 16) (d.extractLsb' 48 16)
    (d.extractLsb' 64 8) (d.extractLsb' 72 8) (d.extractLsb' 80 8)

/-- `D = {b, g, r, h, w, y, x}` (R80). -/
def encodeCommand (x y w h : Coord) (r g b : Byte) : Descriptor :=
  b ++ g ++ r ++ h ++ w ++ y ++ x

/-- The request word with these fields, most significant first. -/
def requestWord (data : Byte) (i y : Coord) (hd : Handle) (k : BitVec 3) : RequestWord :=
  data ++ i ++ y ++ hd ++ k

/-- Accept a decoded request only where its row and offset are what the port carries (R84). -/
def checkOperands (k : BitVec 3) (i : Instr) : Except DecodeError Instr :=
  if i.wellFormed then .ok i else .error (.negativeOperand k)

/-- Accept a decoded request only where the bits above its operands are clear. -/
def checkStray (k : BitVec 3) (clear : Bool) (i : Instr) : Except DecodeError Instr :=
  if clear then checkOperands k i else .error (.strayOperand k)

/-- The request a target-port word holds (R84). -/
def decodeRequest (q : RequestWord) : Except DecodeError Instr :=
  let k := q.extractLsb' 0 3
  let hd := q.extractLsb' 3 8
  let y := q.extractLsb' 11 16
  let i := q.extractLsb' 27 16
  let data := q.extractLsb' 43 8
  match k.toNat with
  | 0 => checkStray k (hd == 0 && y == 0 && i == 0 && data == 0) .acquire
  | 1 => checkStray k (y == 0 && i == 0 && data == 0) (.release hd)
  | 2 => checkStray k (y == 0 && i == 0 && data == 0) (.height hd)
  | 3 => checkStray k (i == 0 && data == 0) (.rowBounds hd y)
  | 4 => checkStray k (data == 0) (.rowRead hd y i)
  | 5 => checkOperands k (.rowWrite hd y i data)
  | _ => .error (.reservedCode k)

/-- The operation a port word holds. -/
def decode : PortWord → Except DecodeError Instr
  | .command d => .ok (decodeCommand d)
  | .request q => decodeRequest q

/-- The port word of an operation; `none` for the datapath operations, which have none (R92).
FILLGRAY has the words of the FILL it expands to (R91). -/
def encode : Instr → Option PortWord
  | .fill x y w h r g b => some (.command (encodeCommand x y w h r g b))
  | .fillGray x y w h v => some (.command (encodeCommand x y w h v v v))
  | .acquire => some (.request (requestWord 0 0 0 0 0b000))
  | .release hd => some (.request (requestWord 0 0 0 hd 0b001))
  | .height hd => some (.request (requestWord 0 0 0 hd 0b010))
  | .rowBounds hd y => some (.request (requestWord 0 0 y hd 0b011))
  | .rowRead hd y i => some (.request (requestWord 0 i y hd 0b100))
  | .rowWrite hd y i data => some (.request (requestWord data i y hd 0b101))
  | .thresh _ _ => none
  | .clipV _ _ _ => none
  | .clipH _ _ _ _ => none
  | .intens _ _ _ => none
  | .mscale _ => none
  | .mcmp _ _ => none
  | .mpack _ _ _ => none
  | .clevel _ _ => none
  | .cpack _ _ _ => none

/-- The operation a word decodes to: FILLGRAY is the FILL it expands to, "the engine cannot tell" the
two apart (R91); every other operation is itself. -/
def Instr.expand : Instr → Instr
  | .fillGray x y w h v => .fill x y w h v v v
  | i => i

/-- The answer lines of an ACQUIRE, `{granted, hd}` (R84): `hd` "is meaningful only when
`granted = 1`", and the model drives it to 0 otherwise. Log 14. -/
def encodeAcquireAnswer : Option Handle → BitVec 9
  | some hd => 1#1 ++ hd
  | none => 0

/-- What an ACQUIRE answer says: `hd` is read only when `granted = 1` (R84). -/
def decodeAcquireAnswer (a : BitVec 9) : Option Handle :=
  if a.extractLsb' 8 1 = 1 then some (a.extractLsb' 0 8) else none

/-- The answer lines of a ROW_BOUNDS, `{maxX, minX}` (R84). -/
def encodeBoundsAnswer (mn mx : Coord) : BitVec 32 := mx ++ mn

/-- The pair (minX, maxX) a ROW_BOUNDS answer holds (R84). -/
def decodeBoundsAnswer (a : BitVec 32) : Coord × Coord :=
  (a.extractLsb' 0 16, a.extractLsb' 16 16)

/-- The decimal operands of a command line, separated as R90 writes them. -/
def operandText : List Int → String
  | [] => ""
  | [v] => toString v
  | v :: vs => toString v ++ ", " ++ operandText vs

/-- The line that R90 and R91 write for a command; `none` for what the host cannot issue (R13). -/
def commandText : Instr → Option String
  | .fill x y w h r g b =>
    some ("FILL " ++ operandText [x.toInt, y.toInt, w.toInt, h.toInt, r.toNat, g.toNat, b.toNat])
  | .fillGray x y w h v =>
    some ("FILLGRAY " ++ operandText [x.toInt, y.toInt, w.toInt, h.toInt, v.toNat])
  | _ => none

/-- The operation the decoder reads from an encoded operation of `nbits` bits: 88 bits are a
descriptor on the command port, fewer a request on the target port whose bits above `nbits` are 0
(30_encoding.md rules R80, R84; bit 0 is the word's least significant bit). -/
def decodeTableWord (nbits w : Nat) : Option Instr :=
  if nbits = 88 then some (decodeCommand (BitVec.ofNat 88 w))
  else if 0 < nbits ∧ w < 2 ^ 51 then (decodeRequest (BitVec.ofNat 51 w)).toOption
  else none

end Sys2Proof
end

