-- ==== Sys2Proof/Machine/Fetch.lean ====
section
/-! DEFINITION. Where the next operation comes from. The engine has no program counter and fetches no
instruction (10_state.md rule R27, 20_memory.md rule R71): a FILL comes from the command port when PH
is IDLE (R161), and what the engine issues on the target port is decided by its phase (R75). -/

namespace Sys2Proof.Machine

/-- The FILL in progress: the command with the latched operands (R21). -/
def State.currentCommand (s : State) : Instr :=
  .fill s.eng.cx s.eng.cy s.eng.cw s.eng.ch s.eng.cr s.eng.cg s.eng.cb

/-- The command on the port is taken off it; the host's next one stands there (R90, R161). -/
def State.takeCommand (s : State) : State :=
  { s with host := { s.host with program := s.host.program.tail } }

/-- A descriptor stands on the command port of an idle engine. -/
def State.placeCommand (s : State) (d : Descriptor) : State :=
  { s with eng := { s.eng with ph := .idle }
           host := { s.host with rst := false, program := d :: s.host.program } }

/-- The engine in this phase, reset released. -/
def State.inPhase (s : State) (ph : Phase) (hd : Handle) : State :=
  { s with eng := { s.eng with ph := ph, hd := hd }
           host := { s.host with rst := false } }

/-- An engine about to compute a monochrome pixel in the byte at offset `i` of row `y`, for an offset
the engine issues (`i` ≤ 4095: `PX` ≤ 2^15 − 1, R27). -/
def State.atMonoPixel (s : State) (y i : Coord) : State :=
  s.latch { s.eng with fmt := .mono, py := y.setWidth 17, px := BitVec.ofNat 17 (8 * i.toNat),
                       xe := BitVec.ofNat 17 (8 * i.toNat + 1) }

/-- The state whose next step issues this target request with these operands (R75): the phase that
issues it (R162 to R166), with the registers the request's operands come from. A ROW_WRITE of `data`
is the write half of a monochrome pixel of the byte `data` whose bit 0 keeps its value (R129). -/
def State.placeRequest (s : State) : Instr → State
  | .acquire => s.inPhase .acq s.eng.hd
  | .release hd => s.inPhase .rel hd
  | .height hd => s.inPhase .hgt hd
  | .rowBounds hd y =>
    let t := s.inPhase .row hd
    t.latch { t.eng with py := y.setWidth 17, ye := y.setWidth 17 + 1 }
  | .rowRead hd y i => (s.inPhase .pix hd).atMonoPixel y i
  | .rowWrite hd y i data =>
    let t := (s.inPhase .pix hd).atMonoPixel y i
    let c : Byte := if data.getLsbD 0 then 255 else 0
    (t.latch { t.eng with cr := c, cg := c, cb := c }).retarget (t.tgt.store (byteAddress y i) data)
  | _ => s

end Sys2Proof.Machine
end

