-- ==== Sys2Proof/Machine/Step.lean ====
section
/-! DEFINITION. One step of the machine (44_fill.md rule R160): the reset input first (R200), then the
phase. In IDLE the engine accepts the command that stands on the port, and has nothing to do where
none is presented (R161); in every other phase the fill in progress takes its next step. -/

namespace Sys2Proof.Machine

/-- One step. An idle engine with no command presented "has no step" (R161): the model's step then
leaves the machine as it is (DESIGN CHOICE, safe; log 8). -/
def step (s : State) : Host.Outcome State Fault Refusal :=
  if s.host.rst then s.underReset
  else
    match s.eng.ph with
    | .idle =>
      match s.host.program with
      | [] => .next s
      | d :: _ => exec (decodeCommand d) s.takeCommand
    | _ => exec s.currentCommand s

/-- The state whose next step runs the operation with these bits: a descriptor stands on the command
port of an idle engine; a target request is what the phase that issues it comes to next. Log 15. -/
def State.withFetchWord (s : State) (nbits w : Nat) : State :=
  match decodeTableWord nbits w with
  | none => s
  | some i => if nbits = 88 then s.placeCommand (BitVec.ofNat 88 w) else s.placeRequest i

end Sys2Proof.Machine
end

