-- ==== Sys2Proof/Machine/BigStep.lean ====
section
/-! DEFINITION. The big-step view of a fill: the visible set (41_region_clipper.md rule R118), the
memory, the trace and the counts of a whole FILL as functions of the command, the target and the
parameters (44_fill.md rules R156, R170, R171). The phase machine of Machine/Fill.lean is the other
view; R169 says they agree. -/

namespace Sys2Proof.Machine

/-- The operands of one FILL (R155). -/
structure Command where
  x : Coord
  y : Coord
  w : Coord
  h : Coord
  r : Byte
  g : Byte
  b : Byte
  deriving DecidableEq, Repr

/-- The command as an operation. -/
def Command.instr (c : Command) : Instr := .fill c.x c.y c.w c.h c.r c.g c.b

/-- The command in the operand latches (R21). -/
def Engine.command (e : Engine) : Command :=
  { x := e.cx, y := e.cy, w := e.cw, h := e.ch, r := e.cr, g := e.cg, b := e.cb }

/-- The clipped row range (yb, ye) of a command on a target (R110). -/
def Command.rows (c : Command) (t : Target) : Int × Int := clipV c.y.toInt c.h.toInt t.height.toInt

/-- The clipped column range (xb, xe) of row `j` (R112). -/
def Command.columns (c : Command) (t : Target) (j : Int) : Int × Int :=
  clipH c.x.toInt c.w.toInt (t.boundsAt j.toNat).1.toInt (t.boundsAt j.toNat).2.toInt

/-- Column `col`, row `j` is a visible pixel: the set V of R118. -/
def Command.visible (c : Command) (t : Target) (col j : Int) : Bool :=
  decide ((c.rows t).1 ≤ j ∧ j < (c.rows t).2 ∧ (c.columns t j).1 ≤ col ∧ col < (c.columns t j).2)

/-- `MONO`: the bit that pixel (col, j) becomes (R156). -/
def Command.bitOf (c : Command) (lut : Vector Threshold 64) (col j : Int) : Bool :=
  monoOn c.r c.g c.b (threshold lut col j)

/-- `COLOR`: the byte that pixel (col, j) becomes (R156). -/
def Command.byteOf (c : Command) (lut : Vector Threshold 64) (col j : Int) : Byte :=
  colorByte c.r c.g c.b (threshold lut col j)

/-- The row of a memory key. -/
def addressRow (a : Nat) : Int := (a / 65536 : Nat)

/-- The offset of a memory key. -/
def addressOffset (a : Nat) : Int := (a % 65536 : Nat)

/-- The byte at address `a` after a granted fill, given the byte before: "mem with every pixel (c, j)
of V replaced by px(c, j), and nothing else changed" (R156). -/
def Command.byteAfter (c : Command) (fmt : PixelFormat) (lut : Vector Threshold 64) (t : Target)
    (a : Nat) (old : Byte) : Byte :=
  match fmt with
  | .mono =>
    (List.range 8).foldl (fun byte (k : Nat) =>
      if c.visible t (8 * addressOffset a + (k : Int)) (addressRow a) then
        mergeBit byte k (c.bitOf lut (8 * addressOffset a + (k : Int)) (addressRow a))
      else byte) old
  | .color =>
    if c.visible t (addressOffset a) (addressRow a) then
      c.byteOf lut (addressOffset a) (addressRow a)
    else old

/-- How many rows survive, `R = max(0, YE − YB)` (R75, R171). -/
def Command.rowCount (c : Command) (t : Target) : Nat := ((c.rows t).2 - (c.rows t).1).toNat

/-- How many columns of row `j` are visible. -/
def Command.columnCount (c : Command) (t : Target) (j : Int) : Nat :=
  ((c.columns t j).2 - (c.columns t j).1).toNat

/-- The surviving rows, ascending (R159). -/
def Command.rowList (c : Command) (t : Target) : List Int :=
  (List.range (c.rowCount t)).map fun k => (c.rows t).1 + (k : Int)

/-- The visible columns of row `j`, ascending (R159). -/
def Command.columnList (c : Command) (t : Target) (j : Int) : List Int :=
  (List.range (c.columnCount t j)).map fun k => (c.columns t j).1 + (k : Int)

/-- `P = |V|`, the number of visible pixels (R171). -/
def Command.pixelCount (c : Command) (t : Target) : Nat :=
  ((c.rowList t).map (c.columnCount t)).sum

/-- The steps of a granted fill, `2R + P + 6` (R171). -/
def Command.stepCount (c : Command) (t : Target) : Nat := 2 * c.rowCount t + c.pixelCount t + 6

/-- The transactions of a granted fill: `3 + R + 2P` in `MONO`, `3 + R + P` in `COLOR` (R171). -/
def Command.transactionCount (c : Command) (fmt : PixelFormat) (t : Target) : Nat :=
  match fmt with
  | .mono => 3 + c.rowCount t + 2 * c.pixelCount t
  | .color => 3 + c.rowCount t + c.pixelCount t

/-- What a transaction asks for: its kind, its row and its offset, 0 where the kind sends none. -/
abbrev Site := ReqKind × Int × Int

/-- The site of a transaction (R84, "operands sent"). -/
def Txn.site : Txn → Site
  | .acquire _ => (.acquire, 0, 0)
  | .release _ => (.release, 0, 0)
  | .height _ _ => (.height, 0, 0)
  | .rowBounds _ y _ _ => (.rowBounds, y.toInt, 0)
  | .rowRead _ y i _ => (.rowRead, y.toInt, i.toInt)
  | .rowWrite _ y i _ => (.rowWrite, y.toInt, i.toInt)

/-- The handle a transaction carries; ACQUIRE sends none (R76, R84). -/
def Txn.handle : Txn → Option Handle
  | .acquire _ => none
  | .release hd => some hd
  | .height hd _ => some hd
  | .rowBounds hd _ _ _ => some hd
  | .rowRead hd _ _ _ => some hd
  | .rowWrite hd _ _ _ => some hd

/-- The accesses of one pixel (R170). -/
def pixelSites (fmt : PixelFormat) (j col : Int) : List Site :=
  match fmt with
  | .mono => [(.rowRead, j, monoOffset col), (.rowWrite, j, monoOffset col)]
  | .color => [(.rowWrite, j, colorOffset col)]

/-- The transactions of one surviving row (R170). -/
def Command.rowSites (c : Command) (fmt : PixelFormat) (t : Target) (j : Int) : List Site :=
  (.rowBounds, j, 0) :: (c.columnList t j).flatMap (pixelSites fmt j)

/-- The transactions of a granted fill, in issue order (R170). -/
def Command.sites (c : Command) (fmt : PixelFormat) (t : Target) : List Site :=
  [(.acquire, 0, 0), (.height, 0, 0)] ++ (c.rowList t).flatMap (c.rowSites fmt t) ++
    [(.release, 0, 0)]

/-- The transactions of one pixel on memory `m`, with the byte read and the byte written (R129, R143,
R170). -/
def Command.pixelTrace (c : Command) (fmt : PixelFormat) (lut : Vector Threshold 64) (hd : Handle)
    (j col : Int) (m : Memory) : List Txn :=
  let y : Coord := BitVec.ofInt 16 j
  let i : Coord := BitVec.ofInt 16 (pixelOffset fmt col)
  let old := Memory.read m (byteAddress y i)
  match fmt with
  | .mono => [.rowRead hd y i old,
              .rowWrite hd y i (mergeBit old (monoBit col) (c.bitOf lut col j))]
  | .color => [.rowWrite hd y i (c.byteOf lut col j)]

/-- Pixel memory after a transaction: only ROW_WRITE changes it (R52 to R57). -/
def Txn.memoryAfter (m : Memory) : Txn → Memory
  | .acquire _ => m
  | .release _ => m
  | .height _ _ => m
  | .rowBounds _ _ _ _ => m
  | .rowRead _ _ _ _ => m
  | .rowWrite _ y i data => Memory.write m (byteAddress y i) data

/-- The transactions of these columns of row `j`, on memory `m`, in this order (R170). -/
def Command.columnsTrace (c : Command) (fmt : PixelFormat) (lut : Vector Threshold 64) (hd : Handle)
    (j : Int) : List Int → Memory → List Txn
  | [], _ => []
  | col :: cols, m =>
    let new := c.pixelTrace fmt lut hd j col m
    new ++ c.columnsTrace fmt lut hd j cols (new.foldl Txn.memoryAfter m)

/-- The transactions of these rows on memory `m`, in this order: each row's ROW_BOUNDS with its answer,
then its visible columns (R170). -/
def Command.rowsTrace (c : Command) (fmt : PixelFormat) (lut : Vector Threshold 64) (t : Target)
    (hd : Handle) : List Int → Memory → List Txn
  | [], _ => []
  | j :: js, m =>
    let new := .rowBounds hd (BitVec.ofInt 16 j) (t.boundsAt j.toNat).1 (t.boundsAt j.toNat).2 ::
      c.columnsTrace fmt lut hd j (c.columnList t j) m
    new ++ c.rowsTrace fmt lut t hd js (new.foldl Txn.memoryAfter m)

/-- The trace of a granted fill with handle `hd`, every operand and every answer in it (R170). -/
def Command.trace (c : Command) (fmt : PixelFormat) (lut : Vector Threshold 64) (t : Target)
    (hd : Handle) : List Txn :=
  [.acquire (some hd), .height hd t.height] ++ c.rowsTrace fmt lut t hd (c.rowList t) t.mem ++
    [.release hd]

/-- The permitted merging of the read-modify-writes of pixels that share a byte: bits `lo` up to
`lo + n − 1` of one byte set or cleared "at once" (R212). -/
def mergeBits (old : Byte) (lo n : Nat) (on : Nat → Bool) : Byte :=
  BitVec.ofNat 8 ((List.range 8).foldl (fun v k =>
    v + 2 ^ k * (if lo ≤ k ∧ k < lo + n then on k else old.getLsbD k).toNat) 0)

end Sys2Proof.Machine
end

