-- ==== Sys2Proof/Safety.lean ====
section
/-! DEFINITION. The terms the statements use: the duties of the target (20_memory.md rule R73), what
the coming ACQUIRE is answered, the machine's invariant (10_state.md rules R25 to R27, 44_fill.md
rule R165), and which registers hold a value in which phase (10_state.md rule R35). -/

namespace Sys2Proof.Machine

/-! ## The target -/

/-- Duties T2, T4, T6 and T7 of R73 for a target used in this format. T5 holds of every run: no step
of the model changes height, bounds or memory but the engine's own writes. -/
structure Target.KeepsDuties (t : Target) (fmt : PixelFormat) : Prop where
  /-- T2, T4: every request is answered -/
  answers : t.silent = []
  /-- T6: `minX(y) ≥ 0` for every row in `[0, height)` -/
  minX_nonneg : ∀ y : Nat, (y : Int) < t.height.toInt → 0 ≤ (t.boundsAt y).1.toInt
  /-- T7: the byte of every column in a row's range exists (R65) -/
  backed : ∀ y : Nat, (y : Int) < t.height.toInt → ∀ x : Int, (t.boundsAt y).1.toInt ≤ x →
    x ≤ (t.boundsAt y).2.toInt →
    t.hasByte (byteAddress (BitVec.ofNat 16 y) (BitVec.ofInt 16 (pixelOffset fmt x))) = true

/-- The coming ACQUIRE is answered `GRANT(hd)` by a target that keeps duty T1. -/
def Target.WillGrant (t : Target) (hd : Handle) : Prop :=
  t.lock = .free ∧
    (t.avail.head? = some (.grant hd) ∨ (t.avail = [] ∧ Config.acqAnswer t.asked = some hd))

/-- The coming ACQUIRE is answered `UNAVAILABLE`. -/
def Target.WillRefuse (t : Target) : Prop :=
  t.avail.head? = some .unavailable ∨ (t.avail = [] ∧ t.freeAnswer = none)

/-- The target once its answer to an ACQUIRE is given: one scripted answer fewer, or one free answer
more. -/
def Target.answered (t : Target) : Target :=
  match t.avail with
  | [] => { t with asked := t.asked + 1 }
  | _ :: rest => { t with avail := rest }

/-- The 64 entries of the ROM are the numbers 0..63, each once (R101). -/
def IsPermutation (lut : Vector Threshold 64) : Prop :=
  lut.toList.Perm ((List.range 64).map (BitVec.ofNat 6))

/-! ## The numbers of the two pixel formats, as the rules write them -/

/-- `MCMP(MSCALE(INTENS(r, g, b)), t)`: the bit of a monochrome pixel (R126 to R128). -/
def specOn (r g b : Byte) (t : Threshold) : Bool :=
  decide (64 * ((3 * r.toNat + 4 * g.toNat + b.toNat) / 8) / 255 > t.toNat)

/-- `CLEVEL(c, t)`, a level 0..3 (R141). -/
def specLevel (c : Byte) (t : Threshold) : Nat :=
  min (c.toNat / 85 + (if 64 * (c.toNat % 85) / 85 > t.toNat then 1 else 0)) 3

/-- `CPACK` of the three levels of colour (r, g, b), `0xC0 + 16·lr + 4·lg + lb` (R140, R142). -/
def specPacked (r g b : Byte) (t : Threshold) : Nat :=
  0xC0 + 16 * specLevel r t + 4 * specLevel g t + specLevel b t

/-- A byte with bit `k` replaced and its seven other bits kept (R129). -/
def IsMerged (old new : Byte) (k : Int) (on : Bool) : Prop :=
  ∀ n : Nat, n < 8 → new.getLsbD n = if (n : Int) = k then on else old.getLsbD n

/-! ## What a step may ask of the target -/

/-- The phases that a step of FILL may lead to: the phase graph (R160). -/
def Phase.successors : Phase → List Phase
  | .idle => [.acq]
  | .acq => [.hgt, .rsp]
  | .hgt => [.row]
  | .row => [.pix, .rel]
  | .pix => [.pix, .row]
  | .rel => [.rsp]
  | .rsp => [.idle]

/-- The kind of a transaction (R51). -/
def Txn.kind : Txn → ReqKind
  | .acquire _ => .acquire
  | .release _ => .release
  | .height _ _ => .height
  | .rowBounds _ _ _ _ => .rowBounds
  | .rowRead _ _ _ _ => .rowRead
  | .rowWrite _ _ _ _ => .rowWrite

/-- The transactions that one step of FILL issues in this state (R75). -/
def Engine.requests (e : Engine) : List ReqKind :=
  match e.ph with
  | .idle => []
  | .acq => [.acquire]
  | .hgt => [.height]
  | .row => if e.py.toInt < e.ye.toInt then [.rowBounds] else []
  | .pix =>
    if e.px.toInt < e.xe.toInt then
      match e.fmt with
      | .mono => [.rowRead, .rowWrite]
      | .color => [.rowWrite]
    else []
  | .rel => [.release]
  | .rsp => []

/-- An access touches only the byte of a visible pixel, and bounds are asked only of rows in
`[0, height)` (R65). -/
def Txn.InBounds (c : Command) (fmt : PixelFormat) (t : Target) : Txn → Prop
  | .acquire _ => True
  | .release _ => True
  | .height _ _ => True
  | .rowBounds _ y _ _ => 0 ≤ y.toInt ∧ y.toInt < t.height.toInt
  | .rowRead _ y i _ => 0 ≤ y.toInt ∧ y.toInt < t.height.toInt ∧
      ∃ col : Int, c.visible t col y.toInt = true ∧ i.toInt = pixelOffset fmt col
  | .rowWrite _ y i _ => 0 ≤ y.toInt ∧ y.toInt < t.height.toInt ∧
      ∃ col : Int, c.visible t col y.toInt = true ∧ i.toInt = pixelOffset fmt col

/-! ## The invariant -/

/-- The phases between a GRANT and its RELEASE: the hold (R18, R68). -/
def Phase.inHold : Phase → Bool
  | .hgt => true
  | .row => true
  | .pix => true
  | .rel => true
  | .idle => false
  | .acq => false
  | .rsp => false

/-- What HGT, YB, YE and PY hold in phases ROW and PIX (R25, R27). -/
structure RowRange (s : State) : Prop where
  height_read : s.eng.hgt = s.tgt.height
  first : s.eng.yb.toInt = max s.eng.cy.toInt 0
  last : s.eng.ye.toInt = min (s.eng.cy.toInt + s.eng.ch.toInt) s.eng.hgt.toInt
  from_first : s.eng.yb.toInt ≤ s.eng.py.toInt
  to_last : s.eng.py.toInt ≤ max s.eng.yb.toInt s.eng.ye.toInt

/-- What MINX, MAXX, XB, XE and PX hold in phase PIX (R26, R27). -/
structure ColumnRange (s : State) : Prop where
  row_remains : s.eng.py.toInt < s.eng.ye.toInt
  bounds_read : (s.eng.minx, s.eng.maxx) = s.tgt.boundsAt s.eng.py.toInt.toNat
  minx_nonneg : 0 ≤ s.eng.minx.toInt
  first : s.eng.xb.toInt = max s.eng.cx.toInt s.eng.minx.toInt
  last : s.eng.xe.toInt = min (s.eng.cx.toInt + s.eng.cw.toInt) (s.eng.maxx.toInt + 1)
  from_first : s.eng.xb.toInt ≤ s.eng.px.toInt
  to_last : s.eng.px.toInt ≤ max s.eng.xb.toInt s.eng.xe.toInt

/-- The invariant of the machine. -/
structure Inv (s : State) : Prop where
  /-- the pixel memory is in canonical form -/
  memory : Memory.wf s.tgt.mem = true
  /-- no combinational value outlives its step (R30) -/
  wires : s.wires = Wires.rest
  /-- the lock is HELD from the GRANT to the RELEASE (R52, R53, R68) -/
  hold : s.eng.ph.inHold = true → s.tgt.lock = .held
  rows : s.eng.ph = .row ∨ s.eng.ph = .pix → RowRange s
  columns : s.eng.ph = .pix → ColumnRange s

/-! ## Which registers hold a value (R35) -/

/-- Two states agree on everything but registers that hold no value in their phase (the table of R35)
and the wires. -/
structure SameLive (a b : State) : Prop where
  ph : a.eng.ph = b.eng.ph
  fmt : a.eng.fmt = b.eng.fmt
  lut : a.eng.lut = b.eng.lut
  tgt : a.tgt = b.tgt
  host : a.host = b.host
  trace : a.trace = b.trace
  /-- `CX CY CW CH CR CG CB` hold a value through ACQ .. RSP -/
  operands : a.eng.ph ≠ .idle → a.eng.command = b.eng.command
  /-- `HD` through HGT .. REL -/
  handle : a.eng.ph.inHold = true → a.eng.hd = b.eng.hd
  /-- `HGT YB YE PY` through ROW .. REL -/
  rows : a.eng.ph = .row ∨ a.eng.ph = .pix ∨ a.eng.ph = .rel →
    a.eng.hgt = b.eng.hgt ∧ a.eng.yb = b.eng.yb ∧ a.eng.ye = b.eng.ye ∧ a.eng.py = b.eng.py
  /-- `MINX MAXX XB XE PX` in PIX -/
  columns : a.eng.ph = .pix →
    a.eng.minx = b.eng.minx ∧ a.eng.maxx = b.eng.maxx ∧ a.eng.xb = b.eng.xb ∧
      a.eng.xe = b.eng.xe ∧ a.eng.px = b.eng.px
  /-- `ST` in RSP -/
  status : a.eng.ph = .rsp → a.eng.st = b.eng.st

/-- Two outcomes that differ in nothing but what holds no value. -/
def SameOutcome : Result → Result → Prop
  | .next a, .next b => SameLive a b
  | .fault f, .fault g => f = g
  | .refused x, .refused y => x = y
  | _, _ => False

end Sys2Proof.Machine
end

