-- ==== Sys2Proof/Certificates/Slice0/Obligations.lean ====
section
/-! DEFINITION. The statements for the provers, from the numbered rules of spec/. The free answer of
an ACQUIRE (`Config.acqAnswer`) and the strap (`Config.strap`) are opaque: what is stated holds for
every value they may have. Nothing rests on the value of the counter `asked` or of the wires between
steps. -/

open Sys2Proof Sys2Proof.Machine

/-! ## Encoding (30_encoding.md) -/

/-- Words written out from R80, R84 and the vectors of 95_test_vectors.md decode to the operations
they stand for. -/
def Obligations.DecodeReadsSpecWords : Prop :=
  decode (.command 0x808080000A000AFFFDFFFD) = .ok (.fill (-3) (-3) 10 10 128 128 128) ∧
  decode (.command 0xC8AA550002000400000000) = .ok (.fill 0 0 4 2 85 170 200) ∧
  decode (.command 0x0302010002FFFC00000000) = .ok (.fill 0 0 (-4) 2 1 2 3) ∧
  decode (.request 0b000) = .ok .acquire ∧
  decode (.request 0b001) = .ok (.release 0) ∧
  decode (.request 0b010) = .ok (.height 0) ∧
  decode (.request 0b011) = .ok (.rowBounds 0 0) ∧
  decode (.request 0b100) = .ok (.rowRead 0 0 0) ∧
  decode (.request 0b101) = .ok (.rowWrite 0 0 0 0)

/-- Every one of the 2^88 descriptors is a FILL whose operands are its fields, each at its bits
(R80, R82). -/
def Obligations.EveryDescriptorIsFill : Prop :=
  ∀ d : Descriptor, ∃ x y w h : Coord, ∃ r g b : Byte,
    decode (.command d) = .ok (.fill x y w h r g b) ∧
    (∀ k : Nat, k < 16 → x.getLsbD k = d.getLsbD k ∧ y.getLsbD k = d.getLsbD (16 + k) ∧
      w.getLsbD k = d.getLsbD (32 + k) ∧ h.getLsbD k = d.getLsbD (48 + k)) ∧
    (∀ k : Nat, k < 8 → r.getLsbD k = d.getLsbD (64 + k) ∧ g.getLsbD k = d.getLsbD (72 + k) ∧
      b.getLsbD k = d.getLsbD (80 + k))

/-- Decode and encode agree: the word of a well-formed operation decodes to that operation, FILLGRAY
to the FILL it expands to (R80, R84, R91). The layout of a request's operands above its code is the
model's choice (log 14). -/
def Obligations.DecodeEncodeAgree : Prop :=
  ∀ (i : Instr) (w : PortWord), i.wellFormed = true → encode i = some w → decode w = .ok i.expand

/-- What the decoder accepts is well formed and encodes back to the same word: no two words mean the
same, and no bit is dropped. The layout of a request's operands, and that a stray bit is refused, are
the model's choice (log 14). -/
def Obligations.DecodedOperationEncodesBack : Prop :=
  ∀ (w : PortWord) (i : Instr), decode w = .ok i → i.wellFormed = true ∧ encode i = some w

/-- The model's choice (log 14): the decoder refuses the request codes 0b110 and 0b111 by name, whatever
the operand bits. The spec says only that the engine never issues them (R84), and that a target model
that receives one "may `refuse`" (U11). -/
def Obligations.ReservedCodesRefused : Prop :=
  ∀ q : RequestWord, 6 ≤ (q.extractLsb' 0 3).toNat →
    decode (.request q) = .error (.reservedCode (q.extractLsb' 0 3))

/-! ## The step -/

/-- In IDLE with a command presented, a step runs the operation its descriptor decodes to, with the
descriptor taken off the port (R161). -/
def Obligations.StepRunsPresentedCommand : Prop :=
  ∀ (s : State) (d : Descriptor) (ds : List Descriptor) (i : Instr), s.host.rst = false →
    s.eng.ph = .idle → s.host.program = d :: ds → decode (.command d) = .ok i →
    step s = exec i { s with host := { s.host with program := ds } }

/-- In every other phase a step goes on with the FILL in the operand latches, and what stands on the
command port waits (R208, R21). -/
def Obligations.StepContinuesFill : Prop :=
  ∀ s : State, s.host.rst = false → s.eng.ph ≠ .idle →
    step s = exec (.fill s.eng.cx s.eng.cy s.eng.cw s.eng.ch s.eng.cr s.eng.cg s.eng.cb) s

/-- The model's choice (assumption log 8): an idle engine with no command presented, which "has no
step" (R161), stays as it is. -/
def Obligations.IdleEngineWaits : Prop :=
  ∀ s : State, s.host.rst = false → s.eng.ph = .idle → s.host.program = [] → step s = .next s

/-! ## Reset (70_reset_and_hazards.md) -/

/-- What reset leaves where the spec gives a value: PH = IDLE, ST = 0, FMT = the strap, the ROM holding
the default table, a permutation of 0..63, and no response pending (R36, R101, R102, R201). The table is
the deployment's parameter, and that it is the default one here is PRESUMED (U1, G1; log 3). -/
def Obligations.ResetLeavesSpecValues : Prop :=
  State.reset.eng.ph = .idle ∧ State.reset.eng.ph.code = 0 ∧ State.reset.eng.st.code = 0 ∧
  State.reset.eng.fmt = State.reset.host.strap ∧ State.reset.host.responses = [] ∧
  IsPermutation State.reset.eng.lut ∧
  State.reset.eng.lut.toList.map BitVec.toNat =
    [0, 32, 8, 40, 2, 34, 10, 42, 48, 16, 56, 24, 50, 18, 58, 26] ++
    [12, 44, 4, 36, 14, 46, 6, 38, 60, 28, 52, 20, 62, 30, 54, 22] ++
    [3, 35, 11, 43, 1, 33, 9, 41, 51, 19, 59, 27, 49, 17, 57, 25] ++
    [15, 47, 7, 39, 13, 45, 5, 37, 63, 31, 55, 23, 61, 29, 53, 21]

/-- A step under reset: in IDLE the engine is reset with the strap as it stands, the ROM and the target
untouched, no transaction issued and no response lost (R200 to R203); while a fill is in progress, in
every other phase, the model has no reset move and refuses by name (R15, R204, U5, D21). That one step
samples the strap and releases reset is the model's choice (log 16). -/
def Obligations.ResetInputResetsEngine : Prop :=
  ∀ s : State, s.host.rst = true →
    (s.eng.ph = .idle →
      ∃ t, step s = .next t ∧ t.eng.ph = .idle ∧ t.eng.st = .success ∧
        t.eng.fmt = s.host.strap ∧ t.eng.lut = s.eng.lut ∧ t.tgt = s.tgt ∧ t.trace = s.trace ∧
        t.host = { s.host with rst := false }) ∧
    (s.eng.ph ≠ .idle → step s = .refused .resetDuringFill)

/-! ## The datapath operations: result, completion and frame -/

/-- THRESH puts `LUT[8·(y mod 8) + (x mod 8)]` on its output, the entry at ROM address
`{y[2:0], x[2:0]}`, for every integer pair, and changes nothing else (R87, R100, R104). -/
def Obligations.ThreshResult : Prop :=
  ∀ (x y : Int) (s : State), ∃ n : Fin 64,
    (n.val : Int) = 8 * (y % 8) + x % 8 ∧
    n.val = (BitVec.ofInt 3 y ++ BitVec.ofInt 3 x).toNat ∧
    exec (.thresh x y) s = .next { s with wires := { s.wires with t := s.eng.lut.get n } }

/-- CLIPV puts `max(y, 0)` and `min(y + h, H)`, both exact, on its outputs and changes nothing else;
it has no encoding (R110, R115). -/
def Obligations.ClipVResult : Prop :=
  ∀ (y h bufH : Coord) (s : State), ∃ yb ye : Wide,
    yb.toInt = max y.toInt 0 ∧ ye.toInt = min (y.toInt + h.toInt) bufH.toInt ∧
    encode (.clipV y h bufH) = none ∧
    exec (.clipV y h bufH) s = .next { s with wires := { s.wires with yb := yb, ye := ye } }

/-- CLIPH puts `max(x, mn)` and `min(x + w, mx + 1)`, both exact, on its outputs and changes nothing
else; it has no encoding (R112, R115). -/
def Obligations.ClipHResult : Prop :=
  ∀ (x w mn mx : Coord) (s : State), ∃ xb xe : Wide,
    xb.toInt = max x.toInt mn.toInt ∧ xe.toInt = min (x.toInt + w.toInt) (mx.toInt + 1) ∧
    encode (.clipH x w mn mx) = none ∧
    exec (.clipH x w mn mx) s = .next { s with wires := { s.wires with xb := xb, xe := xe } }

/-- INTENS puts `(3·r + 4·g + 1·b) div 8` on its output, never cut by the width, and changes nothing
else; it has no encoding (R126). -/
def Obligations.IntensResult : Prop :=
  ∀ (r g b : Byte) (s : State), ∃ i : Byte,
    i.toNat = (3 * r.toNat + 4 * g.toNat + 1 * b.toNat) / 8 ∧
    encode (.intens r g b) = none ∧
    exec (.intens r g b) s = .next { s with wires := { s.wires with i := i } }

/-- MSCALE puts `(64·I) div 255`, which is `I div 4` below 255 and 64 at 255, on its output and
changes nothing else; it has no encoding (R127). -/
def Obligations.MscaleResult : Prop :=
  ∀ (i : Byte) (s : State), ∃ v : BitVec 7,
    v.toNat = 64 * i.toNat / 255 ∧
    v.toNat = (if i.toNat = 255 then 64 else i.toNat / 4) ∧
    encode (.mscale i) = none ∧
    exec (.mscale i) s = .next { s with wires := { s.wires with s := v } }

/-- MCMP puts the strict unsigned comparison `S > t` on its output and changes nothing else; it has no
encoding (R128). -/
def Obligations.McmpResult : Prop :=
  ∀ (v : BitVec 7) (t : Threshold) (s : State), ∃ on : Bool,
    (on = true ↔ v.toNat > t.toNat) ∧
    encode (.mcmp v t) = none ∧
    exec (.mcmp v t) s = .next { s with wires := { s.wires with on := on } }

/-- MPACK of a column and row the port can carry, on a target that answers and has the byte: one
ROW_READ and one ROW_WRITE of the byte at (y, x div 8), with only bit `x mod 8` differing; every other
byte, register and field is unchanged but the port's answer lines and the trace (R129, R59). -/
def Obligations.MpackResult : Prop :=
  ∀ (x y : Wide) (on : Bool) (s : State) (row i : Coord), 0 ≤ x.toInt → 0 ≤ y.toInt →
    row.toInt = y.toInt → i.toInt = x.toInt / 8 →
    .rowRead ∉ s.tgt.silent → .rowWrite ∉ s.tgt.silent →
    s.tgt.hasByte (byteAddress row i) = true → Memory.wf s.tgt.mem = true →
    ∃ (new : Byte) (mem : Memory),
      IsMerged (Memory.read s.tgt.mem (byteAddress row i)) new (x.toInt % 8) on ∧
      Memory.read mem (byteAddress row i) = new ∧
      (∀ a : Nat, a ≠ byteAddress row i → Memory.read mem a = Memory.read s.tgt.mem a) ∧
      exec (.mpack x y on) s = .next { s with
        tgt := { s.tgt with mem := mem }
        wires := { s.wires with data := Memory.read s.tgt.mem (byteAddress row i) }
        trace := s.trace ++
          [.rowRead s.eng.hd row i (Memory.read s.tgt.mem (byteAddress row i)),
           .rowWrite s.eng.hd row i new] }

/-- CLEVEL puts `min(c div 85 + inc, 3)` on its output, where `inc` is the strict comparison of the
scaled remainder with the threshold; the cap is never reached; nothing else changes; it has no
encoding (R141, R145). -/
def Obligations.ClevelResult : Prop :=
  ∀ (c : Byte) (t : Threshold) (s : State), ∃ v : Level,
    v.toNat = min (c.toNat / 85 + (if 64 * (c.toNat % 85) / 85 > t.toNat then 1 else 0)) 3 ∧
    v.toNat = c.toNat / 85 + (if 64 * (c.toNat % 85) / 85 > t.toNat then 1 else 0) ∧
    encode (.clevel c t) = none ∧
    exec (.clevel c t) s = .next { s with wires := { s.wires with level := v } }

/-- CPACK puts `0xC0 + 16·lr + 4·lg + lb`, the byte `11rrggbb`, on its output and changes nothing
else; it has no encoding as an operation (R86, R142). -/
def Obligations.CpackResult : Prop :=
  ∀ (lr lg lb : Level) (s : State), ∃ v : Byte,
    v.toNat = 0xC0 + 16 * lr.toNat + 4 * lg.toNat + lb.toNat ∧
    v = 0b11#2 ++ lr ++ lg ++ lb ∧
    encode (.cpack lr lg lb) = none ∧
    exec (.cpack lr lg lb) s = .next { s with wires := { s.wires with packed := v } }

/-! ## The transactions of the target port: result, completion and frame (20_memory.md) -/

/-- ACQUIRE answered GRANT(hd): the lock becomes HELD and the handle stands on the answer lines; the
height, bounds and memory, the engine's registers and the host's side are unchanged (R52). -/
def Obligations.AcquireGranted : Prop :=
  ∀ (s : State) (hd : Handle), .acquire ∉ s.tgt.silent → s.tgt.WillGrant hd →
    exec .acquire s = .next { s with
      tgt := { s.tgt.answered with lock := .held }
      wires := { s.wires with acq := some hd }
      trace := s.trace ++ [.acquire (some hd)] }

/-- ACQUIRE answered UNAVAILABLE: "nothing changes" on the target but that this answer was given
(R52). -/
def Obligations.AcquireUnavailable : Prop :=
  ∀ s : State, .acquire ∉ s.tgt.silent → s.tgt.WillRefuse →
    exec .acquire s = .next { s with
      tgt := s.tgt.answered
      wires := { s.wires with acq := none }
      trace := s.trace ++ [.acquire none] }

/-- RELEASE: the lock becomes FREE; the memory and everything else is unchanged (R53). -/
def Obligations.ReleaseFreesLock : Prop :=
  ∀ (s : State) (hd : Handle), .release ∉ s.tgt.silent →
    exec (.release hd) s = .next { s with
      tgt := { s.tgt with lock := .free }
      trace := s.trace ++ [.release hd] }

/-- HEIGHT: the height on the answer lines, no effect on the target (R54). -/
def Obligations.HeightAnswers : Prop :=
  ∀ (s : State) (hd : Handle), .height ∉ s.tgt.silent →
    exec (.height hd) s = .next { s with
      wires := { s.wires with hgt := s.tgt.height }
      trace := s.trace ++ [.height hd s.tgt.height] }

/-- ROW_BOUNDS of a row whose range keeps duty T6: (minX, maxX) on the answer lines, no effect on the
target (R55). -/
def Obligations.RowBoundsAnswers : Prop :=
  ∀ (s : State) (hd : Handle) (y mn mx : Coord), .rowBounds ∉ s.tgt.silent →
    s.tgt.boundsAt y.toNat = (mn, mx) → 0 ≤ mn.toInt →
    exec (.rowBounds hd y) s = .next { s with
      wires := { s.wires with mn := mn, mx := mx }
      trace := s.trace ++ [.rowBounds hd y mn mx] }

/-- ROW_READ: the byte at (y, i) on the answer lines, no effect on the target (R56). -/
def Obligations.RowReadAnswers : Prop :=
  ∀ (s : State) (hd : Handle) (y i : Coord), .rowRead ∉ s.tgt.silent →
    s.tgt.hasByte (byteAddress y i) = true →
    exec (.rowRead hd y i) s = .next { s with
      wires := { s.wires with data := Memory.read s.tgt.mem (byteAddress y i) }
      trace := s.trace ++ [.rowRead hd y i (Memory.read s.tgt.mem (byteAddress y i))] }

/-- ROW_WRITE: the byte at (y, i) becomes the value, "no other byte changes", the canonical form is
kept, and nothing else changes (R57). -/
def Obligations.RowWriteStores : Prop :=
  ∀ (s : State) (hd : Handle) (y i : Coord) (v : Byte), .rowWrite ∉ s.tgt.silent →
    s.tgt.hasByte (byteAddress y i) = true → Memory.wf s.tgt.mem = true →
    ∃ mem : Memory, Memory.wf mem = true ∧ Memory.read mem (byteAddress y i) = v ∧
      (∀ y' i' : Coord, (y', i') ≠ (y, i) →
        Memory.read mem (byteAddress y' i') = Memory.read s.tgt.mem (byteAddress y' i')) ∧
      (∀ a : Nat, a ≠ byteAddress y i → Memory.read mem a = Memory.read s.tgt.mem a) ∧
      exec (.rowWrite hd y i v) s = .next { s with
        tgt := { s.tgt with mem := mem }
        trace := s.trace ++ [.rowWrite hd y i v] }

/-- A target that never answers a kind of request leaves the requester stuck, whoever issues it: the
request itself, MPACK, or the FILL in the phase that issues it (duties T2 and T4, R74). That such a target
leaves a whole kind unanswered is the model's choice (log 21). -/
def Obligations.SilentTargetSticks : Prop :=
  ∀ (s : State) (hd : Handle) (y i : Coord) (v : Byte) (c : Command),
    (.acquire ∈ s.tgt.silent → exec .acquire s = .fault (.noAnswer .acquire) ∧
      (s.eng.ph = .acq → exec c.instr s = .fault (.noAnswer .acquire))) ∧
    (.release ∈ s.tgt.silent → exec (.release hd) s = .fault (.noAnswer .release) ∧
      (s.eng.ph = .rel → exec c.instr s = .fault (.noAnswer .release))) ∧
    (.height ∈ s.tgt.silent → exec (.height hd) s = .fault (.noAnswer .height) ∧
      (s.eng.ph = .hgt → exec c.instr s = .fault (.noAnswer .height))) ∧
    (.rowBounds ∈ s.tgt.silent → exec (.rowBounds hd y) s = .fault (.noAnswer .rowBounds) ∧
      (s.eng.ph = .row → s.eng.py.toInt < s.eng.ye.toInt → 0 ≤ s.eng.py.toInt →
        s.eng.py.toInt < 32768 → exec c.instr s = .fault (.noAnswer .rowBounds))) ∧
    (.rowRead ∈ s.tgt.silent → exec (.rowRead hd y i) s = .fault (.noAnswer .rowRead) ∧
      (∀ (px py : Wide) on, 0 ≤ px.toInt → 0 ≤ py.toInt → py.toInt < 32768 →
        exec (.mpack px py on) s = .fault (.noAnswer .rowRead)) ∧
      (s.eng.ph = .pix → s.eng.fmt = .mono → s.eng.px.toInt < s.eng.xe.toInt →
        0 ≤ s.eng.py.toInt → s.eng.py.toInt < 32768 → 0 ≤ s.eng.px.toInt →
        exec c.instr s = .fault (.noAnswer .rowRead))) ∧
    (.rowWrite ∈ s.tgt.silent → exec (.rowWrite hd y i v) s = .fault (.noAnswer .rowWrite) ∧
      (∀ (px py : Wide) on, 0 ≤ px.toInt → 0 ≤ py.toInt → py.toInt < 32768 →
        .rowRead ∉ s.tgt.silent → s.tgt.holes = [] →
        exec (.mpack px py on) s = .fault (.noAnswer .rowWrite)) ∧
      (s.eng.ph = .pix → s.eng.px.toInt < s.eng.xe.toInt → 0 ≤ s.eng.py.toInt →
        s.eng.py.toInt < 32768 → 0 ≤ s.eng.px.toInt → s.eng.px.toInt < 32768 →
        .rowRead ∉ s.tgt.silent → s.tgt.holes = [] →
        exec c.instr s = .fault (.noAnswer .rowWrite)))

/-- A target that breaks duty T1, T3, T6 or T7 is refused by name, whoever asks: no claim is made about
such a run (R73, R74). The model's choices here (log 17): minX < 0 is refused on every row, where duty
T6 speaks of the rows in [0, height) only; and a row or an offset that the port cannot carry, which only
a broken duty or a state that no run reaches asks for, is refused as `outsidePort`. -/
def Obligations.BrokenDutyRefused : Prop :=
  ∀ (s : State) (c : Command), s.tgt.silent = [] →
    (∀ hd, s.tgt.avail.head? = some (.grant hd) → s.tgt.lock = .held →
      exec .acquire s = .refused .grantWhileHeld ∧
      (s.eng.ph = .acq → exec c.instr s = .refused .grantWhileHeld)) ∧
    (s.tgt.avail.head? = some .other → exec .acquire s = .refused .otherAnswer ∧
      (s.eng.ph = .acq → exec c.instr s = .refused .otherAnswer)) ∧
    (∀ hd (y : Coord), (s.tgt.boundsAt y.toNat).1.toInt < 0 →
      exec (.rowBounds hd y) s = .refused .negativeMinX ∧
      (s.eng.ph = .row → s.eng.py.toInt < s.eng.ye.toInt → 0 ≤ s.eng.py.toInt →
        y.toInt = s.eng.py.toInt → exec c.instr s = .refused .negativeMinX)) ∧
    (∀ hd (y i : Coord) v, s.tgt.hasByte (byteAddress y i) = false →
      exec (.rowRead hd y i) s = .refused .noByte ∧
      exec (.rowWrite hd y i v) s = .refused .noByte ∧
      (∀ (px py : Wide) on, 0 ≤ px.toInt → 0 ≤ py.toInt → y.toInt = py.toInt →
        i.toInt = px.toInt / 8 → exec (.mpack px py on) s = .refused .noByte) ∧
      (s.eng.ph = .pix → s.eng.px.toInt < s.eng.xe.toInt → 0 ≤ s.eng.px.toInt →
        0 ≤ s.eng.py.toInt → y.toInt = s.eng.py.toInt →
        i.toInt = pixelOffset s.eng.fmt s.eng.px.toInt →
        exec c.instr s = .refused .noByte)) ∧
    (∀ (px py : Wide) on, px.toInt < 0 ∨ py.toInt < 0 ∨ 32768 ≤ py.toInt →
      exec (.mpack px py on) s = .refused .outsidePort) ∧
    (s.eng.ph = .row → s.eng.py.toInt < s.eng.ye.toInt →
      s.eng.py.toInt < 0 ∨ 32768 ≤ s.eng.py.toInt → exec c.instr s = .refused .outsidePort) ∧
    (s.eng.ph = .pix → s.eng.px.toInt < s.eng.xe.toInt →
      s.eng.py.toInt < 0 ∨ 32768 ≤ s.eng.py.toInt ∨ s.eng.px.toInt < 0 ∨
        (s.eng.fmt = .color ∧ 32768 ≤ s.eng.px.toInt) →
      exec c.instr s = .refused .outsidePort)

/-! ## FILL, phase by phase: result, completion and frame (44_fill.md)

Where a statement says that nothing else changes, that a register keeps its value in a phase in which it
"holds no value" (R35, U6: "any value") is the model's choice (log 20). -/

/-- Phase IDLE: the seven operands are latched and PH becomes ACQ; no transaction, nothing else
changes (R161, R21). -/
def Obligations.FillAccepted : Prop :=
  ∀ (x y w h : Coord) (r g b : Byte) (s : State), s.eng.ph = .idle → s.wires = Wires.rest →
    exec (.fill x y w h r g b) s = .next { s with
      eng := { s.eng with cx := x, cy := y, cw := w, ch := h, cr := r, cg := g, cb := b,
                          ph := .acq } }

/-- Phase ACQ: on GRANT(hd), `HD <- hd ; PH <- HGT` under a HELD lock; on UNAVAILABLE the exception
ResourceUnavailable is taken: `ST <- 1 ; PH <- RSP`, nothing saved, no other transaction, the target
as it was but for the answer given (R162, R180, R185). -/
def Obligations.FillAcquires : Prop :=
  ∀ (c : Command) (s : State), s.eng.ph = .acq → .acquire ∉ s.tgt.silent →
    s.wires = Wires.rest →
    (∀ hd, s.tgt.WillGrant hd → exec c.instr s = .next { s with
      eng := { s.eng with hd := hd, ph := .hgt }
      tgt := { s.tgt.answered with lock := .held }
      trace := s.trace ++ [.acquire (some hd)] }) ∧
    (s.tgt.WillRefuse → exec c.instr s = .next { s with
      eng := { s.eng with st := .resourceUnavailable, ph := .rsp }
      tgt := s.tgt.answered
      trace := s.trace ++ [.acquire none] })

/-- Phase HGT: `HGT <- Height(HD); (YB, YE) <- CLIPV(CY, CH, HGT); PY <- YB; PH <- ROW`, with one
HEIGHT under the handle, and nothing else (R163). -/
def Obligations.FillReadsHeight : Prop :=
  ∀ (c : Command) (s : State), s.eng.ph = .hgt → .height ∉ s.tgt.silent → s.wires = Wires.rest →
    ∃ yb ye : Wide, yb.toInt = max s.eng.cy.toInt 0 ∧
      ye.toInt = min (s.eng.cy.toInt + s.eng.ch.toInt) s.tgt.height.toInt ∧
      exec c.instr s = .next { s with
        eng := { s.eng with hgt := s.tgt.height, yb := yb, ye := ye, py := yb, ph := .row }
        trace := s.trace ++ [.height s.eng.hd s.tgt.height] }

/-- Phase ROW: where `PY < YE`, one ROW_BOUNDS of row PY, the horizontal clip, `PX <- XB`,
`PH <- PIX`; otherwise `PH <- REL` with no transaction; nothing else changes (R164). -/
def Obligations.FillOpensRow : Prop :=
  ∀ (c : Command) (s : State), s.eng.ph = .row → s.wires = Wires.rest →
    (¬ s.eng.py.toInt < s.eng.ye.toInt →
      exec c.instr s = .next { s with eng := { s.eng with ph := .rel } }) ∧
    (∀ y mn mx : Coord, s.eng.py.toInt < s.eng.ye.toInt → 0 ≤ s.eng.py.toInt →
      y.toInt = s.eng.py.toInt → s.tgt.boundsAt y.toNat = (mn, mx) → 0 ≤ mn.toInt →
      .rowBounds ∉ s.tgt.silent →
      ∃ xb xe : Wide, xb.toInt = max s.eng.cx.toInt mn.toInt ∧
        xe.toInt = min (s.eng.cx.toInt + s.eng.cw.toInt) (mx.toInt + 1) ∧
        exec c.instr s = .next { s with
          eng := { s.eng with minx := mn, maxx := mx, xb := xb, xe := xe, px := xb, ph := .pix }
          trace := s.trace ++ [.rowBounds s.eng.hd y mn mx] })

/-- Phase PIX in `MONO`, a column remaining: bit `PX mod 8` of the byte (PY, PX div 8) becomes
`MCMP(MSCALE(INTENS(CR, CG, CB)), T(PX, PY))`, every other bit of memory is unchanged, one ROW_READ and
one ROW_WRITE are issued, `PX <- PX + 1`, and nothing else changes (R125, R165). -/
def Obligations.FillMonoPixel : Prop :=
  ∀ (c : Command) (s : State) (y i : Coord), s.eng.ph = .pix → s.eng.fmt = .mono →
    s.wires = Wires.rest → s.eng.px.toInt < s.eng.xe.toInt → 0 ≤ s.eng.px.toInt →
    0 ≤ s.eng.py.toInt → y.toInt = s.eng.py.toInt → i.toInt = s.eng.px.toInt / 8 →
    .rowRead ∉ s.tgt.silent → .rowWrite ∉ s.tgt.silent →
    s.tgt.hasByte (byteAddress y i) = true → Memory.wf s.tgt.mem = true →
    ∃ (new : Byte) (mem : Memory) (px : Wide),
      IsMerged (Memory.read s.tgt.mem (byteAddress y i)) new (s.eng.px.toInt % 8)
        (specOn s.eng.cr s.eng.cg s.eng.cb
          (threshold s.eng.lut s.eng.px.toInt s.eng.py.toInt)) ∧
      px.toInt = s.eng.px.toInt + 1 ∧
      Memory.read mem (byteAddress y i) = new ∧
      (∀ a : Nat, a ≠ byteAddress y i → Memory.read mem a = Memory.read s.tgt.mem a) ∧
      exec c.instr s = .next { s with
        eng := { s.eng with px := px }
        tgt := { s.tgt with mem := mem }
        trace := s.trace ++
          [.rowRead s.eng.hd y i (Memory.read s.tgt.mem (byteAddress y i)),
           .rowWrite s.eng.hd y i new] }

/-- Phase PIX in `COLOR`, a column remaining: the byte (PY, PX) becomes the packed levels of
(CR, CG, CB) at one threshold, every other byte is unchanged, one ROW_WRITE and no ROW_READ is issued,
`PX <- PX + 1`, and nothing else changes (R140, R143, R165). -/
def Obligations.FillColorPixel : Prop :=
  ∀ (c : Command) (s : State) (y i : Coord), s.eng.ph = .pix → s.eng.fmt = .color →
    s.wires = Wires.rest → s.eng.px.toInt < s.eng.xe.toInt → 0 ≤ s.eng.px.toInt →
    0 ≤ s.eng.py.toInt → y.toInt = s.eng.py.toInt → i.toInt = s.eng.px.toInt →
    .rowWrite ∉ s.tgt.silent → s.tgt.hasByte (byteAddress y i) = true →
    Memory.wf s.tgt.mem = true →
    ∃ (new : Byte) (mem : Memory) (px : Wide),
      new.toNat = specPacked s.eng.cr s.eng.cg s.eng.cb
        (threshold s.eng.lut s.eng.px.toInt s.eng.py.toInt) ∧
      px.toInt = s.eng.px.toInt + 1 ∧
      Memory.read mem (byteAddress y i) = new ∧
      (∀ a : Nat, a ≠ byteAddress y i → Memory.read mem a = Memory.read s.tgt.mem a) ∧
      exec c.instr s = .next { s with
        eng := { s.eng with px := px }
        tgt := { s.tgt with mem := mem }
        trace := s.trace ++ [.rowWrite s.eng.hd y i new] }

/-- Phase PIX with no column remaining: `PY <- PY + 1 ; PH <- ROW`, no transaction, nothing else
changes (R165). -/
def Obligations.FillClosesRow : Prop :=
  ∀ (c : Command) (s : State), s.eng.ph = .pix → s.wires = Wires.rest →
    ¬ s.eng.px.toInt < s.eng.xe.toInt → s.eng.py.toInt < 65535 →
    ∃ py : Wide, py.toInt = s.eng.py.toInt + 1 ∧
      exec c.instr s = .next { s with eng := { s.eng with py := py, ph := .row } }

/-- Phase REL: `Release(HD) ; ST <- 0 ; PH <- RSP`, and nothing else (R166). -/
def Obligations.FillReleases : Prop :=
  ∀ (c : Command) (s : State), s.eng.ph = .rel → .release ∉ s.tgt.silent →
    s.wires = Wires.rest →
    exec c.instr s = .next { s with
      eng := { s.eng with st := .success, ph := .rsp }
      tgt := { s.tgt with lock := .free }
      trace := s.trace ++ [.release s.eng.hd] }

/-- Phase RSP: the response `S = ST` is delivered, `PH <- IDLE`, no transaction, nothing else (R167);
its bit is 0 for success and 1 for ResourceUnavailable (R83). That the dead working registers keep the
last fill's values after the response is the model's choice (U6; log 20). -/
def Obligations.FillResponds : Prop :=
  Status.success.code = 0 ∧ Status.resourceUnavailable.code = 1 ∧
  ∀ (c : Command) (s : State), s.eng.ph = .rsp → s.wires = Wires.rest →
    exec c.instr s = .next { s with
      eng := { s.eng with ph := .idle }
      host := { s.host with responses := s.host.responses ++ [s.eng.st] } }

/-- FILLGRAY x, y, w, h, v runs as FILL x, y, w, h, v, v, v in every state and has its word (R91); in
IDLE it is accepted with the three intensities equal. -/
def Obligations.FillGrayIsFill : Prop :=
  ∀ (x y w h : Coord) (v : Byte) (s : State),
    exec (.fillGray x y w h v) s = exec (.fill x y w h v v v) s ∧
    encode (.fillGray x y w h v) = encode (.fill x y w h v v v) ∧
    (s.eng.ph = .idle → s.wires = Wires.rest →
      exec (.fillGray x y w h v) s = .next { s with
        eng := { s.eng with cx := x, cy := y, cw := w, ch := h, cr := v, cg := v, cb := v,
                            ph := .acq } })

/-- While the engine is busy the command that stands on the port does not matter: the fill in progress
goes on with its latched operands, whatever is presented (R208, R21). -/
def Obligations.BusyEngineIgnoresPort : Prop :=
  ∀ (c c' : Command) (s : State), s.eng.ph ≠ .idle →
    exec c.instr s = exec c'.instr s ∧
    ∀ t, exec c.instr s = .next t → t.eng.command = s.eng.command ∧
      t.host.program = s.host.program

/-- The frame of one step of FILL: each register changes only in the phase that writes it, the host's
inputs and the target's height, bounds and backing never, the lock only in ACQ and REL, and every byte
of memory is unchanged except, in phase PIX with a column remaining, the byte of pixel (PX, PY)
(R21 to R29, R57, R64). For a register in a phase in which it holds no value this is the model's choice
(log 20), and so it is for the target's holes and silent kinds (log 21). -/
def Obligations.FillStepFrame : Prop :=
  ∀ (c : Command) (s t : State), exec c.instr s = .next t →
    t.eng.fmt = s.eng.fmt ∧ t.eng.lut = s.eng.lut ∧
    (s.eng.ph ≠ .idle → t.eng.command = s.eng.command) ∧
    (s.eng.ph ≠ .acq → t.eng.hd = s.eng.hd) ∧
    (s.eng.ph ≠ .hgt → t.eng.hgt = s.eng.hgt ∧ t.eng.yb = s.eng.yb ∧ t.eng.ye = s.eng.ye) ∧
    (s.eng.ph ≠ .row → t.eng.minx = s.eng.minx ∧ t.eng.maxx = s.eng.maxx ∧
      t.eng.xb = s.eng.xb ∧ t.eng.xe = s.eng.xe) ∧
    (s.eng.ph ≠ .hgt → s.eng.ph ≠ .pix → t.eng.py = s.eng.py) ∧
    (s.eng.ph ≠ .row → s.eng.ph ≠ .pix → t.eng.px = s.eng.px) ∧
    (s.eng.ph ≠ .acq → s.eng.ph ≠ .rel → t.eng.st = s.eng.st) ∧
    t.host.rst = s.host.rst ∧ t.host.strap = s.host.strap ∧ t.host.program = s.host.program ∧
    (s.eng.ph ≠ .rsp → t.host.responses = s.host.responses) ∧
    t.tgt.height = s.tgt.height ∧ t.tgt.bounds = s.tgt.bounds ∧ t.tgt.holes = s.tgt.holes ∧
    t.tgt.silent = s.tgt.silent ∧
    (s.eng.ph ≠ .acq → t.tgt.avail = s.tgt.avail ∧ t.tgt.asked = s.tgt.asked) ∧
    (s.eng.ph ≠ .acq → s.eng.ph ≠ .rel → t.tgt.lock = s.tgt.lock) ∧
    (Memory.wf s.tgt.mem = true → ∀ a : Nat,
      (s.eng.ph = .pix → s.eng.px.toInt < s.eng.xe.toInt →
        a ≠ byteAddress (BitVec.ofInt 16 s.eng.py.toInt)
              (BitVec.ofInt 16 (pixelOffset s.eng.fmt s.eng.px.toInt))) →
      Memory.read t.tgt.mem a = Memory.read s.tgt.mem a)

/-! ## The machine -/

/-- The invariant holds right after reset. -/
def Obligations.ResetMeetsInv : Prop := Inv State.reset

/-- Every step keeps the invariant: the memory's canonical form, no value on a wire between steps, the
lock HELD through the hold, and the ranges of the clip registers and the scan position (R25 to R27,
R30, R52, R68). -/
def Obligations.StepKeepsInv : Prop :=
  ∀ s t : State, Inv s → step s = .next t → Inv t

/-- "Whenever a pixel operation runs, (PX, PY) is a visible pixel" (R165): in the row range, in the
row's bounds, in the rectangle, and on the port. -/
def Obligations.PixelIsVisible : Prop :=
  ∀ s : State, Inv s → s.eng.ph = .pix → s.eng.px.toInt < s.eng.xe.toInt →
    s.eng.command.visible s.tgt s.eng.px.toInt s.eng.py.toInt = true ∧
    0 ≤ s.eng.px.toInt ∧ s.eng.px.toInt < 32768 ∧ s.eng.py.toInt < 32768 ∧
    0 ≤ s.eng.py.toInt ∧ s.eng.py.toInt < s.eng.hgt.toInt ∧
    s.eng.minx.toInt ≤ s.eng.px.toInt ∧ s.eng.px.toInt ≤ s.eng.maxx.toInt ∧
    s.eng.cx.toInt ≤ s.eng.px.toInt ∧ s.eng.px.toInt < s.eng.cx.toInt + s.eng.cw.toInt ∧
    s.eng.cy.toInt ≤ s.eng.py.toInt ∧ s.eng.py.toInt < s.eng.cy.toInt + s.eng.ch.toInt

/-- No access outside the valid region: whatever a step asks of the target, a byte is touched only at
the offset of a visible pixel of a row in `[0, height)`, and bounds are asked only of such rows
(R65, R66). -/
def Obligations.AccessesStayInBounds : Prop :=
  ∀ s t : State, Inv s → step s = .next t →
    ∃ new : List Txn, t.trace = s.trace ++ new ∧
      ∀ x ∈ new, x.InBounds s.eng.command s.eng.fmt s.tgt

/-- A step of FILL leads only along the phase graph: no abort, no retry, no return to ACQ within one
command (R160, R168). -/
def Obligations.StepFollowsPhaseGraph : Prop :=
  ∀ (c : Command) (s t : State), exec c.instr s = .next t → t.eng.ph ∈ s.eng.ph.successors

/-- Which phase issues which transactions, and that each carries the handle bit for bit (R75, R76). -/
def Obligations.RequestsOfPhase : Prop :=
  ∀ (c : Command) (s t : State), exec c.instr s = .next t →
    ∃ new : List Txn, t.trace = s.trace ++ new ∧ new.map Txn.kind = s.eng.requests ∧
      ∀ x ∈ new, x.kind ≠ .acquire → x.handle = some s.eng.hd

/-- A response is delivered in phase RSP and at no other time, and it is the status latch (R167); a reset
loses none. -/
def Obligations.ResponsesOnlyInRsp : Prop :=
  ∀ s t : State, step s = .next t →
    t.host.responses = s.host.responses ++ (if s.eng.ph = .rsp then [s.eng.st] else [])

/-- Nothing the machine does writes the ROM, changes the format between resets, or changes the
target's height or bounds (R23, R157, R202, R71, duty T5 of R73). That a target's holes and silent kinds
stay the same for the whole run is the model's choice (log 21). -/
def Obligations.ConfigurationAndTargetHold : Prop :=
  ∀ s t : State, step s = .next t →
    t.eng.lut = s.eng.lut ∧ (s.host.rst = false → t.eng.fmt = s.eng.fmt) ∧
    t.host.strap = s.host.strap ∧ t.tgt.height = s.tgt.height ∧ t.tgt.bounds = s.tgt.bounds ∧
    t.tgt.holes = s.tgt.holes ∧ t.tgt.silent = s.tgt.silent

/-- The two semantics agree on a granted fill: from IDLE with the command presented and a target that
keeps its duties, after exactly `2R + P + 6` steps the engine is IDLE, has delivered one SUCCESS, has
released the target, and every byte of memory is what the big-step function says (R156, R169, R171). -/
def Obligations.GrantedFillAgrees : Prop :=
  ∀ (c : Command) (s : State) (d : Descriptor) (ds : List Descriptor) (hd : Handle),
    s.host.rst = false → s.eng.ph = .idle → s.host.program = d :: ds →
    decode (.command d) = .ok c.instr → Memory.wf s.tgt.mem = true →
    s.tgt.KeepsDuties s.eng.fmt → s.tgt.WillGrant hd →
    ∃ t : State, Host.Core.run Sys2Proof.core (c.stepCount s.tgt) s = .next t ∧
      t.eng.ph = .idle ∧ t.eng.fmt = s.eng.fmt ∧ t.eng.lut = s.eng.lut ∧
      t.host = { s.host with program := ds, responses := s.host.responses ++ [.success] } ∧
      t.tgt = { s.tgt.answered with lock := .free, mem := t.tgt.mem } ∧
      Memory.wf t.tgt.mem = true ∧
      ∀ a : Nat, Memory.read t.tgt.mem a =
        c.byteAfter s.eng.fmt s.eng.lut s.tgt a (Memory.read s.tgt.mem a)

/-- The trace of a granted fill: exactly the transactions of R170 in issue order, with the handle, row,
offset and byte each carries and the answer each is given, then one SUCCESS; their kinds, rows and
offsets are the list R170 writes, and they are as many as R171 counts. -/
def Obligations.GrantedFillTrace : Prop :=
  ∀ (c : Command) (s : State) (d : Descriptor) (ds : List Descriptor) (hd : Handle),
    s.host.rst = false → s.eng.ph = .idle → s.host.program = d :: ds →
    decode (.command d) = .ok c.instr → s.tgt.KeepsDuties s.eng.fmt → s.tgt.WillGrant hd →
    ∃ t : State, Host.Core.run Sys2Proof.core (c.stepCount s.tgt) s = .next t ∧
      t.trace = s.trace ++ c.trace s.eng.fmt s.eng.lut s.tgt hd ∧
      t.host.responses = s.host.responses ++ [.success] ∧
      (c.trace s.eng.fmt s.eng.lut s.tgt hd).map Txn.site = c.sites s.eng.fmt s.tgt ∧
      (c.trace s.eng.fmt s.eng.lut s.tgt hd).length = c.transactionCount s.eng.fmt s.tgt ∧
      ∀ x ∈ c.trace s.eng.fmt s.eng.lut s.tgt hd, x.kind ≠ .acquire → x.handle = some hd

/-- A refused fill: three steps, one transaction, one response RESOURCE_UNAVAILABLE, and the target as
it was but for the answer given (R156, R171, R180). -/
def Obligations.RefusedFill : Prop :=
  ∀ (c : Command) (s : State) (d : Descriptor) (ds : List Descriptor),
    s.host.rst = false → s.eng.ph = .idle → s.host.program = d :: ds →
    decode (.command d) = .ok c.instr → .acquire ∉ s.tgt.silent → s.tgt.WillRefuse →
    ∃ t : State, Host.Core.run Sys2Proof.core 3 s = .next t ∧ t.eng.ph = .idle ∧
      t.host = { s.host with program := ds,
                             responses := s.host.responses ++ [.resourceUnavailable] } ∧
      t.tgt = s.tgt.answered ∧ t.trace = s.trace ++ [.acquire none]

/-- No register is read before it is written: two machines that differ only in registers that hold no
value in their phase, and in the wires, take the same step and go on differing in nothing else. So no
fill depends on what an earlier one left (R35, R37). -/
def Obligations.DeadRegistersAreIgnored : Prop :=
  ∀ a b : State, SameLive a b → SameOutcome (step a) (step b)

/-- Every command in progress reaches its response: from any busy state that meets the invariant, with
a target that keeps its duties, some number of steps leads to IDLE with exactly one more response
(R216). -/
def Obligations.FillTerminates : Prop :=
  ∀ s : State, Inv s → s.host.rst = false → s.eng.ph ≠ .idle →
    s.tgt.KeepsDuties s.eng.fmt →
    (s.eng.ph = .acq → (∃ hd, s.tgt.WillGrant hd) ∨ s.tgt.WillRefuse) →
    ∃ (k : Nat) (t : State), Host.Core.run Sys2Proof.core k s = .next t ∧ t.eng.ph = .idle ∧
      t.host.responses.length = s.host.responses.length + 1

/-! ## Laws of the clip, the formats and the matrix -/

/-- The visible set: inside the rectangle, inside the buffer's rows, inside the row's range; empty
where the width or the height is not positive (R114, R118). -/
def Obligations.VisibleSet : Prop :=
  ∀ (c : Command) (t : Target) (col j : Int),
    (c.visible t col j = true ↔
      c.y.toInt ≤ j ∧ j < c.y.toInt + c.h.toInt ∧ 0 ≤ j ∧ j < t.height.toInt ∧
      c.x.toInt ≤ col ∧ col < c.x.toInt + c.w.toInt ∧
      (t.boundsAt j.toNat).1.toInt ≤ col ∧ col ≤ (t.boundsAt j.toNat).2.toInt) ∧
    (c.w.toInt ≤ 0 ∨ c.h.toInt ≤ 0 → c.visible t col j = false)

/-- White is the one colour that sets every monochrome pixel, whatever its threshold; black sets none;
and the intensity of the gray (v, v, v) is v (R131, R134). -/
def Obligations.WhiteBlackGray : Prop :=
  (∀ r g b : Byte, (∀ t : Threshold, monoOn r g b t = true) ↔ r = 255 ∧ g = 255 ∧ b = 255) ∧
  (∀ t : Threshold, monoOn 0 0 0 t = false) ∧
  (∀ v : Byte, intensity v v v = v)

/-- Coverage: in any 8×8 window of pixels exactly S are ON in `MONO`, and in `COLOR` exactly s of a
channel's pixels have the higher level, for every table that is a permutation (R132, R147). -/
def Obligations.CoverageLaw : Prop :=
  ∀ (lut : Vector Threshold 64) (x0 y0 : Int) (r g b c : Byte), IsPermutation lut →
    (List.range 64).countP (fun n : Nat =>
      monoOn r g b (threshold lut (x0 + (n % 8 : Nat)) (y0 + (n / 8 : Nat)))) =
        64 * ((3 * r.toNat + 4 * g.toNat + b.toNat) / 8) / 255 ∧
    (List.range 64).countP (fun n : Nat =>
      decide ((level c (threshold lut (x0 + (n % 8 : Nat)) (y0 + (n / 8 : Nat)))).toNat =
        c.toNat / 85 + 1)) = 64 * (c.toNat % 85) / 85

/-- The threshold has period 8 in both directions, and every 8×8 window, aligned or not, holds each of
0..63 once, for every table that is a permutation (R103). -/
def Obligations.ThresholdWindows : Prop :=
  ∀ (lut : Vector Threshold 64) (x y : Int), IsPermutation lut →
    threshold lut (x + 8) y = threshold lut x y ∧ threshold lut x (y + 8) = threshold lut x y ∧
    ((List.range 64).map fun n : Nat =>
      threshold lut (x + (n % 8 : Nat)) (y + (n / 8 : Nat))).Perm
        ((List.range 64).map (BitVec.ofNat 6))

/-- Channel 0 always yields level 0, channel 255 always level 3, the level never falls as the channel
rises, and the channels 0, 85, 170, 255 are exact (R144). -/
def Obligations.LevelLaws : Prop :=
  ∀ t : Threshold, (level 0 t).toNat = 0 ∧ (level 255 t).toNat = 3 ∧
    (level 85 t).toNat = 1 ∧ (level 170 t).toNat = 2 ∧
    ∀ c c' : Byte, c.toNat ≤ c'.toNat → (level c t).toNat ≤ (level c' t).toNat

/-- A fill is idempotent, and fills of one colour tile without seams: filling two rectangles one after
the other is filling any rectangle whose visible set is the union of theirs (R172). -/
def Obligations.FillIdempotentAndTiles : Prop :=
  ∀ (c c' u : Command) (fmt : PixelFormat) (lut : Vector Threshold 64) (t : Target) (a : Nat)
    (old : Byte),
    c.byteAfter fmt lut t a (c.byteAfter fmt lut t a old) = c.byteAfter fmt lut t a old ∧
    ((c.r, c.g, c.b) = (u.r, u.g, u.b) → (c'.r, c'.g, c'.b) = (u.r, u.g, u.b) →
      (∀ col j : Int, u.visible t col j = (c.visible t col j || c'.visible t col j)) →
      c'.byteAfter fmt lut t a (c.byteAfter fmt lut t a old) = u.byteAfter fmt lut t a old)

/-- The order of pixels does not matter: the read-modify-writes of two different monochrome pixels
commute; and merging those of one byte into one changes nothing (R159, R212). -/
def Obligations.PixelWritesCommuteAndMerge : Prop :=
  (∀ (m : Memory) (a a' k k' : Nat) (on on' : Bool), Memory.wf m = true → k < 8 → k' < 8 →
    (a, k) ≠ (a', k') →
    Memory.write (Memory.write m a (mergeBit (Memory.read m a) k on)) a'
        (mergeBit (Memory.read (Memory.write m a (mergeBit (Memory.read m a) k on)) a') k' on') =
      Memory.write (Memory.write m a' (mergeBit (Memory.read m a') k' on')) a
        (mergeBit (Memory.read (Memory.write m a' (mergeBit (Memory.read m a') k' on')) a) k on)) ∧
  (∀ (old : Byte) (lo n : Nat) (on : Nat → Bool), lo + n ≤ 8 →
    (List.range n).foldl (fun byte k => mergeBit byte (lo + k) (on (lo + k))) old =
      mergeBits old lo n on)
end

