-- ==== Sys2Proof/Laws/BigStep.lean ====
section
/-! SUPPORT. The trace of a fill, one column or one row at a time (R170), and what a transaction does to
pixel memory (R52 to R57). -/

namespace Sys2Proof.Machine

@[simp] theorem memoryAfter_acquire (m : Memory) (a : Option Handle) :
    Txn.memoryAfter m (.acquire a) = m := rfl

@[simp] theorem memoryAfter_release (m : Memory) (hd : Handle) :
    Txn.memoryAfter m (.release hd) = m := rfl

@[simp] theorem memoryAfter_height (m : Memory) (hd : Handle) (v : Coord) :
    Txn.memoryAfter m (.height hd v) = m := rfl

@[simp] theorem memoryAfter_rowBounds (m : Memory) (hd : Handle) (y mn mx : Coord) :
    Txn.memoryAfter m (.rowBounds hd y mn mx) = m := rfl

@[simp] theorem memoryAfter_rowRead (m : Memory) (hd : Handle) (y i : Coord) (v : Byte) :
    Txn.memoryAfter m (.rowRead hd y i v) = m := rfl

@[simp] theorem memoryAfter_rowWrite (m : Memory) (hd : Handle) (y i : Coord) (v : Byte) :
    Txn.memoryAfter m (.rowWrite hd y i v) = Memory.write m (byteAddress y i) v := rfl

@[simp] theorem columnsTrace_nil (c : Command) (fmt : PixelFormat) (lut : Vector Threshold 64)
    (hd : Handle) (j : Int) (m : Memory) : c.columnsTrace fmt lut hd j [] m = [] := rfl

theorem columnsTrace_cons (c : Command) (fmt : PixelFormat) (lut : Vector Threshold 64) (hd : Handle)
    (j col : Int) (cols : List Int) (m : Memory) :
    c.columnsTrace fmt lut hd j (col :: cols) m =
      c.pixelTrace fmt lut hd j col m ++
        c.columnsTrace fmt lut hd j cols
          ((c.pixelTrace fmt lut hd j col m).foldl Txn.memoryAfter m) := rfl

@[simp] theorem rowsTrace_nil (c : Command) (fmt : PixelFormat) (lut : Vector Threshold 64)
    (t : Target) (hd : Handle) (m : Memory) : c.rowsTrace fmt lut t hd [] m = [] := rfl

/-- The bounds answer changes no memory, so the columns of a row start on the memory of the rows
above it. -/
theorem rowsTrace_cons (c : Command) (fmt : PixelFormat) (lut : Vector Threshold 64) (t : Target)
    (hd : Handle) (j : Int) (js : List Int) (m : Memory) :
    c.rowsTrace fmt lut t hd (j :: js) m =
      .rowBounds hd (BitVec.ofInt 16 j) (t.boundsAt j.toNat).1 (t.boundsAt j.toNat).2 ::
        (c.columnsTrace fmt lut hd j (c.columnList t j) m ++
          c.rowsTrace fmt lut t hd js
            ((c.columnsTrace fmt lut hd j (c.columnList t j) m).foldl Txn.memoryAfter m)) := rfl

/-- How many transactions one pixel takes (R171). -/
theorem pixelTrace_length (c : Command) (fmt : PixelFormat) (lut : Vector Threshold 64) (hd : Handle)
    (j col : Int) (m : Memory) :
    (c.pixelTrace fmt lut hd j col m).length = match fmt with | .mono => 2 | .color => 1 := by
  cases fmt <;> rfl

end Sys2Proof.Machine
end

