-- ==== Sys2Proof/Laws/Memory.lean ====
section
/-! SUPPORT. The laws of the pixel memory: a byte read after a write, every other byte, the canonical
form, and that two memories in canonical form that read alike are the same. -/

namespace Sys2Proof.Machine

@[simp] theorem Memory.read_nil (a : Nat) : Memory.read [] a = Memory.blank := rfl

theorem Memory.read_cons (b : Nat) (v : Byte) (m : Memory) (a : Nat) :
    Memory.read ((b, v) :: m) a = if b = a then v else Memory.read m a := rfl

/-- No byte at or below a bound that every listed address is above is listed. -/
theorem Memory.read_of_above {m : Memory} {a b : Nat} (h : Memory.above b m = true) (hab : a ≤ b) :
    Memory.read m a = Memory.blank := by
  induction m with
  | nil => rfl
  | cons c m ih =>
    obtain ⟨d, v⟩ := c
    simp only [Memory.above, List.all_cons, Bool.and_eq_true, decide_eq_true_eq] at h
    have hd : d ≠ a := by omega
    simp only [Memory.read_cons, hd, if_false]
    exact ih (by simpa [Memory.above] using h.2)

theorem Memory.read_keep (a : Nat) (v : Byte) (m : Memory) (b : Nat)
    (h : Memory.read m a = Memory.blank) :
    Memory.read (Memory.keep a v m) b = if a = b then v else Memory.read m b := by
  unfold Memory.keep
  split
  · next hv =>
    split
    · next hab => rw [← hab, h, hv]
    · rfl
  · rfl

theorem Memory.above_of_le {m : Memory} {a b : Nat} (h : Memory.above b m = true) (hab : a ≤ b) :
    Memory.above a m = true := by
  simp only [Memory.above, List.all_eq_true, decide_eq_true_eq] at h ⊢
  intro c hc
  have := h c hc
  omega

theorem Memory.wf_cons {b : Nat} {v : Byte} {m : Memory} :
    Memory.wf ((b, v) :: m) = true ↔
      v ≠ Memory.blank ∧ Memory.above b m = true ∧ Memory.wf m = true := by
  simp [Memory.wf, and_assoc]

/-- A write changes the byte it names and no other (R57). -/
theorem Memory.read_write {m : Memory} (h : Memory.wf m = true) (a : Nat) (v : Byte) (b : Nat) :
    Memory.read (Memory.write m a v) b = if a = b then v else Memory.read m b := by
  induction m with
  | nil => exact Memory.read_keep a v [] b rfl
  | cons c m ih =>
    obtain ⟨d, u⟩ := c
    obtain ⟨-, habove, hm⟩ := Memory.wf_cons.1 h
    unfold Memory.write
    split
    · next had =>
      apply Memory.read_keep
      have hne : d ≠ a := by omega
      rw [Memory.read_cons, if_neg hne]
      exact Memory.read_of_above habove (by omega)
    · split
      · next had =>
        subst had
        rw [Memory.read_keep a v m b (Memory.read_of_above habove le_rfl), Memory.read_cons]
        split <;> simp_all
      · next had =>
        rw [Memory.read_cons, Memory.read_cons, ih hm]
        split
        · next hdb => rw [if_neg (by omega)]
        · rfl

theorem Memory.read_write_same {m : Memory} (h : Memory.wf m = true) (a : Nat) (v : Byte) :
    Memory.read (Memory.write m a v) a = v := by
  rw [Memory.read_write h, if_pos rfl]

theorem Memory.read_write_other {m : Memory} (h : Memory.wf m = true) {a b : Nat} (v : Byte)
    (hab : a ≠ b) : Memory.read (Memory.write m a v) b = Memory.read m b := by
  rw [Memory.read_write h, if_neg hab]

theorem Memory.above_keep {a b : Nat} {v : Byte} {m : Memory} (hab : a < b)
    (h : Memory.above a m = true) : Memory.above a (Memory.keep b v m) = true := by
  unfold Memory.keep
  split
  · exact h
  · simpa [Memory.above, hab] using h

theorem Memory.above_write {m : Memory} {a b : Nat} (v : Byte) (hab : a < b)
    (h : Memory.above a m = true) : Memory.above a (Memory.write m b v) = true := by
  induction m with
  | nil => exact Memory.above_keep hab h
  | cons c m ih =>
    obtain ⟨d, u⟩ := c
    have hm : Memory.above a m = true := by
      simp only [Memory.above, List.all_cons, Bool.and_eq_true] at h ⊢
      exact h.2
    unfold Memory.write
    split
    · exact Memory.above_keep hab h
    · split
      · exact Memory.above_keep hab hm
      · have hd : a < d := by
          simp only [Memory.above, List.all_cons, Bool.and_eq_true, decide_eq_true_eq] at h
          exact h.1
        have := ih hm
        simp only [Memory.above, List.all_cons, Bool.and_eq_true, decide_eq_true_eq] at this ⊢
        exact ⟨hd, this⟩

theorem Memory.wf_keep {a : Nat} {v : Byte} {m : Memory} (h : Memory.wf m = true)
    (habove : Memory.above a m = true) : Memory.wf (Memory.keep a v m) = true := by
  unfold Memory.keep
  split
  · exact h
  · next hv => exact Memory.wf_cons.2 ⟨hv, habove, h⟩

/-- A write keeps the canonical form. -/
theorem Memory.wf_write {m : Memory} (h : Memory.wf m = true) (a : Nat) (v : Byte) :
    Memory.wf (Memory.write m a v) = true := by
  induction m with
  | nil => exact Memory.wf_keep rfl rfl
  | cons c m ih =>
    obtain ⟨d, u⟩ := c
    obtain ⟨hu, habove, hm⟩ := Memory.wf_cons.1 h
    unfold Memory.write
    split
    · next had =>
      apply Memory.wf_keep h
      have := Memory.above_of_le habove (Nat.le_of_lt had)
      simp only [Memory.above, List.all_cons, Bool.and_eq_true, decide_eq_true_eq] at this ⊢
      exact ⟨had, this⟩
    · split
      · next had => subst had; exact Memory.wf_keep hm habove
      · exact Memory.wf_cons.2 ⟨hu, Memory.above_write v (by omega) habove, ih hm⟩

/-- Memories in canonical form that read alike at every address are equal. -/
theorem Memory.ext {m n : Memory} (hm : Memory.wf m = true) (hn : Memory.wf n = true)
    (h : ∀ a, Memory.read m a = Memory.read n a) : m = n := by
  induction m generalizing n with
  | nil =>
    cases n with
    | nil => rfl
    | cons c n =>
      obtain ⟨b, v⟩ := c
      have := h b
      rw [Memory.read_nil, Memory.read_cons, if_pos rfl] at this
      exact absurd this.symm (Memory.wf_cons.1 hn).1
  | cons c m ih =>
    obtain ⟨b, v⟩ := c
    obtain ⟨hv, hbm, hm'⟩ := Memory.wf_cons.1 hm
    cases n with
    | nil =>
      have := h b
      rw [Memory.read_nil, Memory.read_cons, if_pos rfl] at this
      exact absurd this hv
    | cons d n =>
      obtain ⟨e, u⟩ := d
      obtain ⟨hu, hen, hn'⟩ := Memory.wf_cons.1 hn
      have hbe : b = e := by
        rcases Nat.lt_trichotomy b e with hlt | heq | hgt
        · have := h b
          rw [Memory.read_cons, if_pos rfl, Memory.read_cons, if_neg (by omega),
            Memory.read_of_above hen (by omega)] at this
          exact absurd this hv
        · exact heq
        · have := h e
          rw [Memory.read_cons, if_neg (by omega), Memory.read_cons, if_pos rfl,
            Memory.read_of_above hbm (by omega)] at this
          exact absurd this.symm hu
      subst hbe
      have hvu : v = u := by
        have := h b
        rwa [Memory.read_cons, if_pos rfl, Memory.read_cons, if_pos rfl] at this
      subst hvu
      congr 1
      apply ih hm' hn'
      intro a
      by_cases hab : b = a
      · rw [← hab, Memory.read_of_above hbm le_rfl, Memory.read_of_above hen le_rfl]
      · have := h a
        rwa [Memory.read_cons, if_neg hab, Memory.read_cons, if_neg hab] at this

end Sys2Proof.Machine
end

