-- ==== Sys2Proof/Laws/State.lean ====
section
/-! SUPPORT. What each named update of the state does to each field: true by definition, so that no
later proof unfolds a record update. -/

namespace Sys2Proof.Machine

/-! ## drive -/

@[simp] theorem State.drive_eng (s : State) (w : Wires) :
    (s.drive w).eng = s.eng := rfl

@[simp] theorem State.drive_tgt (s : State) (w : Wires) :
    (s.drive w).tgt = s.tgt := rfl

@[simp] theorem State.drive_host (s : State) (w : Wires) :
    (s.drive w).host = s.host := rfl

@[simp] theorem State.drive_wires (s : State) (w : Wires) :
    (s.drive w).wires = w := rfl

@[simp] theorem State.drive_trace (s : State) (w : Wires) :
    (s.drive w).trace = s.trace := rfl

/-! ## retarget -/

@[simp] theorem State.retarget_eng (s : State) (t : Target) :
    (s.retarget t).eng = s.eng := rfl

@[simp] theorem State.retarget_tgt (s : State) (t : Target) :
    (s.retarget t).tgt = t := rfl

@[simp] theorem State.retarget_host (s : State) (t : Target) :
    (s.retarget t).host = s.host := rfl

@[simp] theorem State.retarget_wires (s : State) (t : Target) :
    (s.retarget t).wires = s.wires := rfl

@[simp] theorem State.retarget_trace (s : State) (t : Target) :
    (s.retarget t).trace = s.trace := rfl

/-! ## latch -/

@[simp] theorem State.latch_eng (s : State) (e : Engine) :
    (s.latch e).eng = e := rfl

@[simp] theorem State.latch_tgt (s : State) (e : Engine) :
    (s.latch e).tgt = s.tgt := rfl

@[simp] theorem State.latch_host (s : State) (e : Engine) :
    (s.latch e).host = s.host := rfl

@[simp] theorem State.latch_wires (s : State) (e : Engine) :
    (s.latch e).wires = s.wires := rfl

@[simp] theorem State.latch_trace (s : State) (e : Engine) :
    (s.latch e).trace = s.trace := rfl

/-! ## record -/

@[simp] theorem State.record_eng (s : State) (x : Txn) :
    (s.record x).eng = s.eng := rfl

@[simp] theorem State.record_tgt (s : State) (x : Txn) :
    (s.record x).tgt = s.tgt := rfl

@[simp] theorem State.record_host (s : State) (x : Txn) :
    (s.record x).host = s.host := rfl

@[simp] theorem State.record_wires (s : State) (x : Txn) :
    (s.record x).wires = s.wires := rfl

@[simp] theorem State.record_trace (s : State) (x : Txn) :
    (s.record x).trace = s.trace ++ [x] := rfl

/-! ## settle -/

@[simp] theorem State.settle_eng (s : State) :
    (s.settle).eng = s.eng := rfl

@[simp] theorem State.settle_tgt (s : State) :
    (s.settle).tgt = s.tgt := rfl

@[simp] theorem State.settle_host (s : State) :
    (s.settle).host = s.host := rfl

@[simp] theorem State.settle_wires (s : State) :
    (s.settle).wires = Wires.rest := rfl

@[simp] theorem State.settle_trace (s : State) :
    (s.settle).trace = s.trace := rfl

/-! ## raiseResourceUnavailable -/

@[simp] theorem State.raiseResourceUnavailable_eng (s : State) :
    (s.raiseResourceUnavailable).eng = { s.eng with st := .resourceUnavailable, ph := .rsp } := rfl

@[simp] theorem State.raiseResourceUnavailable_tgt (s : State) :
    (s.raiseResourceUnavailable).tgt = s.tgt := rfl

@[simp] theorem State.raiseResourceUnavailable_host (s : State) :
    (s.raiseResourceUnavailable).host = s.host := rfl

@[simp] theorem State.raiseResourceUnavailable_wires (s : State) :
    (s.raiseResourceUnavailable).wires = s.wires := rfl

@[simp] theorem State.raiseResourceUnavailable_trace (s : State) :
    (s.raiseResourceUnavailable).trace = s.trace := rfl

/-! ## respond -/

@[simp] theorem State.respond_eng (s : State) :
    (s.respond).eng = { s.eng with ph := .idle } := rfl

@[simp] theorem State.respond_tgt (s : State) :
    (s.respond).tgt = s.tgt := rfl

@[simp] theorem State.respond_host (s : State) :
    (s.respond).host = { s.host with responses := s.host.responses ++ [s.eng.st] } := rfl

@[simp] theorem State.respond_wires (s : State) :
    (s.respond).wires = s.wires := rfl

@[simp] theorem State.respond_trace (s : State) :
    (s.respond).trace = s.trace := rfl

/-! ## takeCommand -/

@[simp] theorem State.takeCommand_eng (s : State) :
    (s.takeCommand).eng = s.eng := rfl

@[simp] theorem State.takeCommand_tgt (s : State) :
    (s.takeCommand).tgt = s.tgt := rfl

@[simp] theorem State.takeCommand_host (s : State) :
    (s.takeCommand).host = { s.host with program := s.host.program.tail } := rfl

@[simp] theorem State.takeCommand_wires (s : State) :
    (s.takeCommand).wires = s.wires := rfl

@[simp] theorem State.takeCommand_trace (s : State) :
    (s.takeCommand).trace = s.trace := rfl

/-! ## resetEngine -/

@[simp] theorem State.resetEngine_eng (s : State) :
    (s.resetEngine).eng = Engine.reset s.host.strap s.eng.lut := rfl

@[simp] theorem State.resetEngine_tgt (s : State) :
    (s.resetEngine).tgt = s.tgt := rfl

@[simp] theorem State.resetEngine_host (s : State) :
    (s.resetEngine).host = { s.host with rst := false } := rfl

@[simp] theorem State.resetEngine_wires (s : State) :
    (s.resetEngine).wires = Wires.rest := rfl

@[simp] theorem State.resetEngine_trace (s : State) :
    (s.resetEngine).trace = s.trace := rfl

/-! ## The target -/

@[simp] theorem Target.store_lock (t : Target) (a : Nat) (v : Byte) :
    (t.store a v).lock = t.lock := rfl

@[simp] theorem Target.store_avail (t : Target) (a : Nat) (v : Byte) :
    (t.store a v).avail = t.avail := rfl

@[simp] theorem Target.store_asked (t : Target) (a : Nat) (v : Byte) :
    (t.store a v).asked = t.asked := rfl

@[simp] theorem Target.store_height (t : Target) (a : Nat) (v : Byte) :
    (t.store a v).height = t.height := rfl

@[simp] theorem Target.store_bounds (t : Target) (a : Nat) (v : Byte) :
    (t.store a v).bounds = t.bounds := rfl

@[simp] theorem Target.store_mem (t : Target) (a : Nat) (v : Byte) :
    (t.store a v).mem = Memory.write t.mem a v := rfl

@[simp] theorem Target.store_holes (t : Target) (a : Nat) (v : Byte) :
    (t.store a v).holes = t.holes := rfl

@[simp] theorem Target.store_silent (t : Target) (a : Nat) (v : Byte) :
    (t.store a v).silent = t.silent := rfl

@[simp] theorem Target.boundsAt_store (t : Target) (a : Nat) (v : Byte) (y : Nat) :
    (t.store a v).boundsAt y = t.boundsAt y := rfl

@[simp] theorem Target.hasByte_store (t : Target) (a b : Nat) (v : Byte) :
    (t.store a v).hasByte b = t.hasByte b := rfl

/-! ## The engine after reset (R36, R201) -/

@[simp] theorem Engine.reset_ph (strap : PixelFormat) (lut : Vector Threshold 64) :
    (Engine.reset strap lut).ph = .idle := rfl

@[simp] theorem Engine.reset_st (strap : PixelFormat) (lut : Vector Threshold 64) :
    (Engine.reset strap lut).st = .success := rfl

@[simp] theorem Engine.reset_fmt (strap : PixelFormat) (lut : Vector Threshold 64) :
    (Engine.reset strap lut).fmt = strap := rfl

@[simp] theorem Engine.reset_lut (strap : PixelFormat) (lut : Vector Threshold 64) :
    (Engine.reset strap lut).lut = lut := rfl

/-! ## The steps on the target port -/

@[simp] theorem State.loadByte_eng (s : State) (hd : Handle) (y i : Coord) :
    (s.loadByte hd y i).eng = s.eng := rfl

@[simp] theorem State.loadByte_tgt (s : State) (hd : Handle) (y i : Coord) :
    (s.loadByte hd y i).tgt = s.tgt := rfl

@[simp] theorem State.loadByte_host (s : State) (hd : Handle) (y i : Coord) :
    (s.loadByte hd y i).host = s.host := rfl

@[simp] theorem State.loadByte_data (s : State) (hd : Handle) (y i : Coord) :
    (s.loadByte hd y i).wires.data = Memory.read s.tgt.mem (byteAddress y i) := rfl

@[simp] theorem State.loadByte_trace (s : State) (hd : Handle) (y i : Coord) :
    (s.loadByte hd y i).trace =
      s.trace ++ [.rowRead hd y i (Memory.read s.tgt.mem (byteAddress y i))] := rfl

@[simp] theorem State.storeByte_eng (s : State) (hd : Handle) (y i : Coord) (v : Byte) :
    (s.storeByte hd y i v).eng = s.eng := rfl

@[simp] theorem State.storeByte_tgt (s : State) (hd : Handle) (y i : Coord) (v : Byte) :
    (s.storeByte hd y i v).tgt = s.tgt.store (byteAddress y i) v := rfl

@[simp] theorem State.storeByte_host (s : State) (hd : Handle) (y i : Coord) (v : Byte) :
    (s.storeByte hd y i v).host = s.host := rfl

@[simp] theorem State.storeByte_wires (s : State) (hd : Handle) (y i : Coord) (v : Byte) :
    (s.storeByte hd y i v).wires = s.wires := rfl

@[simp] theorem State.storeByte_trace (s : State) (hd : Handle) (y i : Coord) (v : Byte) :
    (s.storeByte hd y i v).trace = s.trace ++ [.rowWrite hd y i v] := rfl

@[simp] theorem State.answerAcquire_eng (s : State) (t : Target) (a : Option Handle) :
    (s.answerAcquire t a).eng = s.eng := rfl

@[simp] theorem State.answerAcquire_tgt (s : State) (t : Target) (a : Option Handle) :
    (s.answerAcquire t a).tgt = { t with lock := t.lock.afterAcquire a } := rfl

@[simp] theorem State.answerAcquire_host (s : State) (t : Target) (a : Option Handle) :
    (s.answerAcquire t a).host = s.host := rfl

@[simp] theorem State.answerAcquire_wires (s : State) (t : Target) (a : Option Handle) :
    (s.answerAcquire t a).wires = { s.wires with acq := a } := rfl

@[simp] theorem State.answerAcquire_trace (s : State) (t : Target) (a : Option Handle) :
    (s.answerAcquire t a).trace = s.trace ++ [.acquire a] := rfl

end Sys2Proof.Machine
end

