-- ==== Sys2Proof/Laws/Ops.lean ====
section
/-! SUPPORT. What each shared operation does, once: when it answers a next state, and which. -/

namespace Sys2Proof.Machine

/-! ## Sequencing and the duties of the target -/

@[simp] theorem andThen_next (s : State) (k : State → Result) :
    andThen (.next s) k = k s := rfl

@[simp] theorem andThen_fault (f : Fault) (k : State → Result) :
    andThen (.fault f) k = .fault f := rfl

@[simp] theorem andThen_refused (x : Refusal) (k : State → Result) :
    andThen (.refused x) k = .refused x := rfl

/-- A sequence answers a next state exactly when both of its parts do. -/
theorem andThen_eq_next {r : Result} {k : State → Result} {t : State} :
    andThen r k = .next t ↔ ∃ s, r = .next s ∧ k s = .next t := by
  cases r <;> simp

/-- A request answers a next state exactly when the target answers its kind (T2, T4). -/
theorem serve_eq_next {k : ReqKind} {s : State} {r : Result} {t : State} :
    serve k s r = .next t ↔ k ∉ s.tgt.silent ∧ r = .next t := by
  unfold serve
  split <;> simp_all

theorem serve_of_answered {k : ReqKind} {s : State} (r : Result) (h : k ∉ s.tgt.silent) :
    serve k s r = r := by
  unfold serve
  simp [h]

theorem serve_of_silent {k : ReqKind} {s : State} (r : Result) (h : k ∈ s.tgt.silent) :
    serve k s r = .fault (.noAnswer k) := by
  unfold serve
  simp [h]

/-- An access answers a next state only where there is a byte (T7). -/
theorem withByte_eq_next {s : State} {y i : Coord} {r : Result} {t : State} :
    withByte s y i r = .next t ↔ s.tgt.hasByte (byteAddress y i) = true ∧ r = .next t := by
  unfold withByte
  split <;> simp_all

theorem grant_eq_next {s : State} {u : Target} {hd : Handle} {t : State} :
    s.grant u hd = .next t ↔ u.lock = .free ∧ t = s.answerAcquire u (some hd) := by
  unfold State.grant
  cases u.lock <;> simp [eq_comm]

/-! ## The port -/

/-- A row or an offset is on the port exactly when it is in 0 .. 2^15 − 1 (R84). -/
theorem toPort_eq_some {v : Int} {c : Coord} :
    toPort v = some c ↔ 0 ≤ v ∧ v < 32768 ∧ BitVec.ofInt 16 v = c := by
  unfold toPort
  split <;> simp_all

/-- What the port carries is the number itself, read signed. -/
theorem toPort_toInt {v : Int} {c : Coord} (h : toPort v = some c) : c.toInt = v := by
  obtain ⟨h0, h1, rfl⟩ := toPort_eq_some.1 h
  rw [BitVec.toInt_ofInt]
  simp only [Int.bmod]
  omega

/-- What the port carries is the number itself, read unsigned. -/
theorem toPort_toNat {v : Int} {c : Coord} (h : toPort v = some c) : (c.toNat : Int) = v := by
  obtain ⟨h0, h1, rfl⟩ := toPort_eq_some.1 h
  rw [BitVec.toNat_ofInt]
  omega

/-- Two addresses are equal only where row and offset are. -/
theorem byteAddress_inj {y i y' i' : Coord} :
    byteAddress y i = byteAddress y' i' ↔ y = y' ∧ i = i' := by
  unfold byteAddress
  rw [← BitVec.toNat_inj, ← BitVec.toNat_inj]
  omega

theorem withPort_eq_next {y i : Int} {k : Coord → Coord → Result} {t : State} :
    withPort y i k = .next t ↔
      ∃ cy ci, toPort y = some cy ∧ toPort i = some ci ∧ k cy ci = .next t := by
  unfold withPort
  cases toPort y <;> cases toPort i <;> simp

/-! ## Widths (R115) -/

/-- A clip result is held exactly in 17 bits. -/
theorem toWide_toInt {v : Int} (h0 : -65536 ≤ v) (h1 : v < 65536) : (toWide v).toInt = v := by
  unfold toWide
  rw [BitVec.toInt_ofInt]
  simp only [Int.bmod]
  omega

/-- Incrementing a scan position below 2^16 − 1 is exact (R27). -/
theorem wide_succ_toInt {v : Wide} (h : v.toInt < 65535) : (v + 1).toInt = v.toInt + 1 := by
  have hb := BitVec.le_toInt (x := v)
  have h1 : (1 : Wide).toInt = 1 := by decide
  rw [BitVec.toInt_add, h1]
  simp only [Int.bmod]
  norm_num at hb ⊢
  omega

/-- The ROM address is `8·(y mod 8) + (x mod 8)` (R87, R100). -/
theorem romAddress_toNat (x y : Int) : ((romAddress x y).toNat : Int) = 8 * (y % 8) + x % 8 := by
  unfold romAddress
  rw [BitVec.toNat_ofNat]
  omega

end Sys2Proof.Machine
end

