-- ==== Sys2Proof/Laws/Port.lean ====
section
/-! SUPPORT. The six transactions and the clips, once each: what a next state of one is. -/

namespace Sys2Proof.Machine

/-- ACQUIRE answers a next state only with the answer on the lines, the lock and the trace changed. -/
theorem execAcquire_next {s t : State} (h : execAcquire s = .next t) :
    .acquire ∉ s.tgt.silent ∧
      ∃ answer : Option Handle, t = s.answerAcquire s.tgt.answered answer ∧
        (answer.isSome → s.tgt.lock = .free) := by
  obtain ⟨hs, h⟩ := serve_eq_next.1 h
  refine ⟨hs, ?_⟩
  unfold Target.answered
  rcases hav : s.tgt.avail with _ | ⟨a, rest⟩
  · simp only [hav, Host.Outcome.next.injEq] at h
    refine ⟨_, h.symm, ?_⟩
    unfold Target.freeAnswer
    cases s.tgt.lock <;> simp
  · cases a with
    | grant hd =>
      simp only [hav] at h
      obtain ⟨hl, rfl⟩ := grant_eq_next.1 h
      exact ⟨some hd, rfl, fun _ => hl⟩
    | unavailable =>
      simp only [hav, Host.Outcome.next.injEq] at h
      exact ⟨none, h.symm, by simp⟩
    | other => simp [hav] at h

theorem execRelease_next {hd : Handle} {s t : State} :
    execRelease hd s = .next t ↔
      .release ∉ s.tgt.silent ∧
        t = (s.retarget { s.tgt with lock := .free }).record (.release hd) := by
  unfold execRelease
  rw [serve_eq_next]
  simp [eq_comm]

theorem execHeight_next {hd : Handle} {s t : State} :
    execHeight hd s = .next t ↔
      .height ∉ s.tgt.silent ∧
        t = (s.drive { s.wires with hgt := s.tgt.height }).record (.height hd s.tgt.height) := by
  unfold execHeight
  rw [serve_eq_next]
  simp [eq_comm]

theorem execRowBounds_next {hd : Handle} {y : Coord} {s t : State} :
    execRowBounds hd y s = .next t ↔
      .rowBounds ∉ s.tgt.silent ∧ 0 ≤ (s.tgt.boundsAt y.toNat).1.toInt ∧
        t = (s.drive { s.wires with mn := (s.tgt.boundsAt y.toNat).1
                                    mx := (s.tgt.boundsAt y.toNat).2 }).record
              (.rowBounds hd y (s.tgt.boundsAt y.toNat).1 (s.tgt.boundsAt y.toNat).2) := by
  unfold execRowBounds
  rw [serve_eq_next]
  split
  · next h => simp; omega
  · next h => simp [eq_comm]; omega

theorem execRowRead_next {hd : Handle} {y i : Coord} {s t : State} :
    execRowRead hd y i s = .next t ↔
      .rowRead ∉ s.tgt.silent ∧ s.tgt.hasByte (byteAddress y i) = true ∧
        t = s.loadByte hd y i := by
  unfold execRowRead
  rw [serve_eq_next, withByte_eq_next, Host.Outcome.next.injEq, eq_comm (b := t)]

theorem execRowWrite_next {hd : Handle} {y i : Coord} {data : Byte} {s t : State} :
    execRowWrite hd y i data s = .next t ↔
      .rowWrite ∉ s.tgt.silent ∧ s.tgt.hasByte (byteAddress y i) = true ∧
        t = s.storeByte hd y i data := by
  unfold execRowWrite
  rw [serve_eq_next, withByte_eq_next, Host.Outcome.next.injEq, eq_comm (b := t)]

/-- MPACK answers a next state exactly when both of its transactions do; then the byte is read and
written back with one bit set or cleared (R129). -/
theorem execMpack_next {x y : Wide} {on : Bool} {s t : State} :
    execMpack x y on s = .next t ↔
      ∃ row i, toPort y.toInt = some row ∧ toPort (monoOffset x.toInt) = some i ∧
        .rowRead ∉ s.tgt.silent ∧ .rowWrite ∉ s.tgt.silent ∧
        s.tgt.hasByte (byteAddress row i) = true ∧
        t = (s.loadByte s.eng.hd row i).storeByte s.eng.hd row i
              (mergeBit (Memory.read s.tgt.mem (byteAddress row i)) (monoBit x.toInt) on) := by
  unfold execMpack
  rw [withPort_eq_next]
  constructor
  · rintro ⟨row, i, hy, hi, h⟩
    obtain ⟨u, hr, hw⟩ := andThen_eq_next.1 h
    obtain ⟨h1, h2, rfl⟩ := execRowRead_next.1 hr
    obtain ⟨h3, -, rfl⟩ := execRowWrite_next.1 hw
    exact ⟨row, i, hy, hi, h1, h3, h2, rfl⟩
  · rintro ⟨row, i, hy, hi, h1, h3, h2, rfl⟩
    refine ⟨row, i, hy, hi, andThen_eq_next.2 ⟨s.loadByte s.eng.hd row i, ?_, ?_⟩⟩
    · exact execRowRead_next.2 ⟨h1, h2, rfl⟩
    · exact execRowWrite_next.2 ⟨h3, h2, rfl⟩

/-! ## The clips are exact (R115) -/

theorem coord_toInt_bounds (v : Coord) : -32768 ≤ v.toInt ∧ v.toInt < 32768 := by
  have h0 := BitVec.le_toInt (x := v)
  have h1 := BitVec.toInt_lt (x := v)
  norm_num at h0 h1
  exact ⟨h0, h1⟩

theorem wide_toInt_bounds (v : Wide) : -65536 ≤ v.toInt ∧ v.toInt < 65536 := by
  have h0 := BitVec.le_toInt (x := v)
  have h1 := BitVec.toInt_lt (x := v)
  norm_num at h0 h1
  exact ⟨h0, h1⟩

/-- Both results of CLIPV fit 17 bits (R115). -/
theorem clipV_exact (y h bufH : Coord) :
    (toWide (clipV y.toInt h.toInt bufH.toInt).1).toInt = max y.toInt 0 ∧
      (toWide (clipV y.toInt h.toInt bufH.toInt).2).toInt =
        min (y.toInt + h.toInt) bufH.toInt := by
  have hy := coord_toInt_bounds y
  have hh := coord_toInt_bounds h
  have hH := coord_toInt_bounds bufH
  constructor <;> rw [toWide_toInt] <;> simp only [clipV] <;> omega

/-- Both results of CLIPH fit 17 bits (R115). -/
theorem clipH_exact (x w mn mx : Coord) :
    (toWide (clipH x.toInt w.toInt mn.toInt mx.toInt).1).toInt = max x.toInt mn.toInt ∧
      (toWide (clipH x.toInt w.toInt mn.toInt mx.toInt).2).toInt =
        min (x.toInt + w.toInt) (mx.toInt + 1) := by
  have hx := coord_toInt_bounds x
  have hw := coord_toInt_bounds w
  have hn := coord_toInt_bounds mn
  have hm := coord_toInt_bounds mx
  constructor <;> rw [toWide_toInt] <;> simp only [clipH] <;> omega

end Sys2Proof.Machine
end

