-- ==== Sys2Proof/Laws/Fill.lean ====
section
/-! SUPPORT. Each phase of FILL, once: what its next state is (R161 to R167). A proof about `execFill`
or `step` splits on the phase and cites these. -/

namespace Sys2Proof.Machine

/-- The wires after the colour datapath of pixel (PX, PY) (R140). -/
def colorWires (s : State) : Wires :=
  let t := threshold s.eng.lut s.eng.px.toInt s.eng.py.toInt
  { s.wires with t := t, level := level s.eng.cb t,
                 packed := colorByte s.eng.cr s.eng.cg s.eng.cb t }

/-- The colour pixel is one ROW_WRITE of the packed byte (R140, R143). -/
theorem colorPixel_next {s t : State} :
    colorPixel s = .next t ↔
      ∃ row i, toPort s.eng.py.toInt = some row ∧ toPort (colorOffset s.eng.px.toInt) = some i ∧
        .rowWrite ∉ s.tgt.silent ∧ s.tgt.hasByte (byteAddress row i) = true ∧
        t = (s.drive (colorWires s)).storeByte s.eng.hd row i
          (colorByte s.eng.cr s.eng.cg s.eng.cb
            (threshold s.eng.lut s.eng.px.toInt s.eng.py.toInt)) := by
  unfold colorPixel execThresh execClevel execCpack
  simp only [andThen_next, withPort_eq_next, execRowWrite_next]
  rfl

/-- The wires before the monochrome store of pixel (PX, PY) (R125). -/
def monoWires (s : State) : Wires :=
  let t := threshold s.eng.lut s.eng.px.toInt s.eng.py.toInt
  let i := intensity s.eng.cr s.eng.cg s.eng.cb
  { s.wires with t := t, i := i, s := scaled i, on := exceeds (scaled i) t }

/-- The monochrome pixel is one ROW_READ and one ROW_WRITE of the byte that holds it (R125, R129). -/
theorem monoPixel_next {s t : State} :
    monoPixel s = .next t ↔
      ∃ row i, toPort s.eng.py.toInt = some row ∧ toPort (monoOffset s.eng.px.toInt) = some i ∧
        .rowRead ∉ s.tgt.silent ∧ .rowWrite ∉ s.tgt.silent ∧
        s.tgt.hasByte (byteAddress row i) = true ∧
        t = ((s.drive (monoWires s)).loadByte s.eng.hd row i).storeByte s.eng.hd row i
          (mergeBit (Memory.read s.tgt.mem (byteAddress row i)) (monoBit s.eng.px.toInt)
            (monoOn s.eng.cr s.eng.cg s.eng.cb
              (threshold s.eng.lut s.eng.px.toInt s.eng.py.toInt))) := by
  unfold monoPixel execThresh execIntens execMscale execMcmp
  simp only [andThen_next, execMpack_next]
  rfl

/-- Phase ACQ: the answer decides between HGT with the handle and the exception (R162). -/
theorem phaseAcq_next {s t : State} (h : phaseAcq s = .next t) :
    .acquire ∉ s.tgt.silent ∧
      ∃ answer : Option Handle, (answer.isSome → s.tgt.lock = .free) ∧
        t = (s.answerAcquire s.tgt.answered answer).afterAcquire.settle := by
  obtain ⟨u, hu, ht⟩ := andThen_eq_next.1 h
  obtain ⟨hs, answer, rfl, hl⟩ := execAcquire_next hu
  exact ⟨hs, answer, hl, (Host.Outcome.next.inj ht).symm⟩

/-- The engine after phase HGT (R163). -/
def afterHeight (s : State) : Engine :=
  { s.eng with hgt := s.tgt.height
               yb := toWide (clipV s.eng.cy.toInt s.eng.ch.toInt s.tgt.height.toInt).1
               ye := toWide (clipV s.eng.cy.toInt s.eng.ch.toInt s.tgt.height.toInt).2
               py := toWide (clipV s.eng.cy.toInt s.eng.ch.toInt s.tgt.height.toInt).1
               ph := .row }

/-- Phase HGT (R163). -/
theorem phaseHgt_next {s t : State} :
    phaseHgt s = .next t ↔
      .height ∉ s.tgt.silent ∧
        t = ((s.latch (afterHeight s)).record (.height s.eng.hd s.tgt.height)).settle := by
  unfold phaseHgt execClipV
  constructor
  · intro h
    obtain ⟨u, hu, ht⟩ := andThen_eq_next.1 h
    obtain ⟨hs, rfl⟩ := execHeight_next.1 hu
    exact ⟨hs, (Host.Outcome.next.inj ht).symm⟩
  · rintro ⟨hs, rfl⟩
    exact andThen_eq_next.2 ⟨_, execHeight_next.2 ⟨hs, rfl⟩, rfl⟩

/-- The engine after phase ROW opened row `y`, whose bounds are (mn, mx) (R164). -/
def afterBounds (s : State) (mn mx : Coord) : Engine :=
  { s.eng with minx := mn
               maxx := mx
               xb := toWide (clipH s.eng.cx.toInt s.eng.cw.toInt mn.toInt mx.toInt).1
               xe := toWide (clipH s.eng.cx.toInt s.eng.cw.toInt mn.toInt mx.toInt).2
               px := toWide (clipH s.eng.cx.toInt s.eng.cw.toInt mn.toInt mx.toInt).1
               ph := .pix }

/-- Phase ROW where a row remains (R164). -/
theorem openRow_next {s t : State} :
    openRow s = .next t ↔
      ∃ y, toPort s.eng.py.toInt = some y ∧ .rowBounds ∉ s.tgt.silent ∧
        0 ≤ (s.tgt.boundsAt y.toNat).1.toInt ∧
        t = ((s.latch (afterBounds s (s.tgt.boundsAt y.toNat).1 (s.tgt.boundsAt y.toNat).2)).record
              (.rowBounds s.eng.hd y (s.tgt.boundsAt y.toNat).1
                (s.tgt.boundsAt y.toNat).2)).settle := by
  unfold openRow execClipH
  rw [withPort_eq_next]
  constructor
  · rintro ⟨y, i, hy, -, h⟩
    obtain ⟨u, hu, ht⟩ := andThen_eq_next.1 h
    obtain ⟨hs, hm, rfl⟩ := execRowBounds_next.1 hu
    exact ⟨y, hy, hs, hm, (Host.Outcome.next.inj ht).symm⟩
  · rintro ⟨y, hy, hs, hm, rfl⟩
    exact ⟨y, 0, hy, rfl, andThen_eq_next.2 ⟨_, execRowBounds_next.2 ⟨hs, hm, rfl⟩, rfl⟩⟩

/-- Phase ROW (R164). -/
theorem phaseRow_next {s t : State} :
    phaseRow s = .next t ↔
      (s.eng.py.toInt < s.eng.ye.toInt ∧ openRow s = .next t) ∨
      (¬ s.eng.py.toInt < s.eng.ye.toInt ∧ t = (s.latch { s.eng with ph := .rel }).settle) := by
  unfold phaseRow rowRemains
  split <;> simp_all [eq_comm]

/-- Phase PIX (R165): one pixel, or the row is done. -/
theorem phasePix_next {s t : State} :
    phasePix s = .next t ↔
      (s.eng.px.toInt < s.eng.xe.toInt ∧
        ∃ u, pixel s = .next u ∧
          t = (u.latch { u.eng with px := u.eng.px + 1, ph := .pix }).settle) ∨
      (¬ s.eng.px.toInt < s.eng.xe.toInt ∧
        t = (s.latch { s.eng with py := s.eng.py + 1, ph := .row }).settle) := by
  unfold phasePix columnRemains
  split
  · next h =>
    rw [andThen_eq_next]
    simp only [decide_eq_true_eq] at h
    simp [h, eq_comm]
  · next h =>
    simp only [decide_eq_true_eq] at h
    simp [h, eq_comm]

/-- Phase REL (R166). -/
theorem phaseRel_next {s t : State} :
    phaseRel s = .next t ↔
      .release ∉ s.tgt.silent ∧
        t = (((s.retarget { s.tgt with lock := .free }).record (.release s.eng.hd)).latch
              { s.eng with st := .success, ph := .rsp }).settle := by
  unfold phaseRel
  constructor
  · intro h
    obtain ⟨u, hu, ht⟩ := andThen_eq_next.1 h
    obtain ⟨hs, rfl⟩ := execRelease_next.1 hu
    exact ⟨hs, (Host.Outcome.next.inj ht).symm⟩
  · rintro ⟨hs, rfl⟩
    exact andThen_eq_next.2 ⟨_, execRelease_next.2 ⟨hs, rfl⟩, rfl⟩

/-- Everything one step of a FILL can do, by phase (R160 to R167). -/
theorem execFill_cases {x y w h : Coord} {r g b : Byte} {s t : State}
    (hn : execFill x y w h r g b s = .next t) :
    (s.eng.ph = .idle ∧ phaseIdle x y w h r g b s = .next t) ∨
    (s.eng.ph = .acq ∧ phaseAcq s = .next t) ∨
    (s.eng.ph = .hgt ∧ phaseHgt s = .next t) ∨
    (s.eng.ph = .row ∧ phaseRow s = .next t) ∨
    (s.eng.ph = .pix ∧ phasePix s = .next t) ∨
    (s.eng.ph = .rel ∧ phaseRel s = .next t) ∨
    (s.eng.ph = .rsp ∧ phaseRsp s = .next t) := by
  unfold execFill at hn
  cases hph : s.eng.ph <;> simp only [hph] at hn <;> simp [hn]

end Sys2Proof.Machine
end

