-- ==== Sys2Proof/Laws/PerInstr.lean ====
section
/-! SUPPORT. A statement about every operation as syntax: a request word never carries the codes
`0b110` and `0b111`, which "the engine never issues" (30_encoding.md rule R84, U11). -/

namespace Sys2Proof.Laws.IssuedCode

/-- The request word of this operation, where it has one, carries one of the codes 0..5 (R84). -/
def Statement (i : Instr) : Prop :=
  ∀ q, encode i = some (.request q) → (q.extractLsb' 0 3).toNat < 6

/-- The code is the low three bits of the request word. -/
theorem requestWord_code (data : Byte) (i y : Coord) (hd : Handle) (k : BitVec 3) :
    (requestWord data i y hd k).extractLsb' 0 3 = k := by
  unfold requestWord
  ext n hn
  rw [BitVec.getElem_extractLsb', Nat.zero_add, ← BitVec.getLsbD_eq_getElem]
  exact (BitVec.getLsbD_append (x := data ++ i ++ y ++ hd) (y := k)).trans (by simp [hn])

theorem of_request {op : Instr} (data : Byte) (i y : Coord) (hd : Handle) (k : BitVec 3)
    (hk : k.toNat < 6) (he : encode op = some (.request (requestWord data i y hd k))) :
    Statement op := by
  intro q hq
  rw [he] at hq
  cases hq
  rwa [requestWord_code]

theorem fill (x y w h : Coord) (r g b : Byte) : Statement (.fill x y w h r g b) := by
  intro q hq
  simp [encode] at hq

theorem fillGray (x y w h : Coord) (v : Byte) : Statement (.fillGray x y w h v) := by
  intro q hq
  simp [encode] at hq

theorem acquire : Statement .acquire := of_request _ _ _ _ _ (by decide) rfl

theorem release (hd : Handle) : Statement (.release hd) := of_request _ _ _ _ _ (by decide) rfl

theorem height (hd : Handle) : Statement (.height hd) := of_request _ _ _ _ _ (by decide) rfl

theorem rowBounds (hd : Handle) (y : Coord) : Statement (.rowBounds hd y) :=
  of_request _ _ _ _ _ (by decide) rfl

theorem rowRead (hd : Handle) (y i : Coord) : Statement (.rowRead hd y i) :=
  of_request _ _ _ _ _ (by decide) rfl

theorem rowWrite (hd : Handle) (y i : Coord) (data : Byte) : Statement (.rowWrite hd y i data) :=
  of_request _ _ _ _ _ (by decide) rfl

theorem thresh (x y : Int) : Statement (.thresh x y) := by
  intro q hq
  simp [encode] at hq

theorem clipV (y h bufH : Coord) : Statement (.clipV y h bufH) := by
  intro q hq
  simp [encode] at hq

theorem clipH (x w mn mx : Coord) : Statement (.clipH x w mn mx) := by
  intro q hq
  simp [encode] at hq

theorem intens (r g b : Byte) : Statement (.intens r g b) := by
  intro q hq
  simp [encode] at hq

theorem mscale (i : Byte) : Statement (.mscale i) := by
  intro q hq
  simp [encode] at hq

theorem mcmp (s : BitVec 7) (t : Threshold) : Statement (.mcmp s t) := by
  intro q hq
  simp [encode] at hq

theorem mpack (x y : Wide) (on : Bool) : Statement (.mpack x y on) := by
  intro q hq
  simp [encode] at hq

theorem clevel (c : Byte) (t : Threshold) : Statement (.clevel c t) := by
  intro q hq
  simp [encode] at hq

theorem cpack (lr lg lb : Level) : Statement (.cpack lr lg lb) := by
  intro q hq
  simp [encode] at hq

end Sys2Proof.Laws.IssuedCode
end

