-- ==== Sys2Proof/Laws/Step.lean ====
section
/-! SUPPORT. Everything one step of the machine can do, once (R160, R161, R200, R208). -/

namespace Sys2Proof.Machine

/-- A step under reset answers a next state in IDLE only, and resets the engine (R200, U5). -/
theorem underReset_next {s t : State} :
    s.underReset = .next t ↔ s.eng.ph = .idle ∧ t = s.resetEngine := by
  unfold State.underReset
  cases s.eng.ph <;> simp [eq_comm]

/-- The four kinds of step: reset, waiting for a command, accepting one, going on with one. -/
theorem step_cases {s t : State} (h : step s = .next t) :
    (s.host.rst = true ∧ s.eng.ph = .idle ∧ t = s.resetEngine) ∨
    (s.host.rst = false ∧ s.eng.ph = .idle ∧ s.host.program = [] ∧ t = s) ∨
    (s.host.rst = false ∧ s.eng.ph = .idle ∧
      ∃ d ds, s.host.program = d :: ds ∧ exec (decodeCommand d) s.takeCommand = .next t) ∨
    (s.host.rst = false ∧ s.eng.ph ≠ .idle ∧ exec s.currentCommand s = .next t) := by
  unfold step at h
  split at h
  · next hr => exact .inl ⟨hr, underReset_next.1 h⟩
  · next hr =>
    have hr : s.host.rst = false := by simpa using hr
    split at h
    · next hph =>
      split at h
      · next hp => exact .inr (.inl ⟨hr, hph, hp, (Host.Outcome.next.inj h).symm⟩)
      · next d ds hp => exact .inr (.inr (.inl ⟨hr, hph, d, ds, hp, h⟩))
    · next hph => exact .inr (.inr (.inr ⟨hr, hph, h⟩))

end Sys2Proof.Machine
end

