-- ==== Sys2Proof/Tests/Slice0.lean ====
section
/-! SUPPORT. The model's own tests: one ill-formed term per check of WellFormed, words written out from
30_encoding.md, one-step tests whose expected values are the vectors of 95_test_vectors.md, and for
every statement with hypotheses a witness that meets them. -/

namespace Sys2Proof.Tests

open Sys2Proof.Machine

/-! ## Helpers -/

/-- The next state of an outcome. -/
def next? : Result → Option State
  | .next s => some s
  | _ => none

/-- One value read off the next state. -/
def see {α : Type} (r : Result) (f : State → α) : Option α := (next? r).map f

/-- The fault of an outcome. -/
def fault? : Result → Option Fault
  | .fault f => some f
  | _ => none

/-- The refusal of an outcome. -/
def refusal? : Result → Option Refusal
  | .refused x => some x
  | _ => none

/-- A small target: two rows, (0, 15) and (2, 9); bytes FF at (0, 1) and A5 at (1, 0). -/
def smallTarget : Target :=
  { lock := .free, avail := [.grant 7], asked := 0, height := 2, bounds := [(0, 15), (2, 9)],
    mem := [(1, 0xFF), (65536, 0xA5)], holes := [], silent := [] }

/-- A machine beside that target, in this format and phase. -/
def small (fmt : PixelFormat) (ph : Phase) : State :=
  { eng := { Engine.reset fmt Config.lut with ph := ph }, tgt := smallTarget,
    host := { rst := false, strap := fmt, program := [], responses := [] },
    wires := Wires.rest, trace := [] }

/-- The same, where the target never answers one kind of request. -/
def silent (fmt : PixelFormat) (ph : Phase) (k : ReqKind) : State :=
  { small fmt ph with tgt := { smallTarget with silent := [k] } }

/-- `FILL 1, 0, 5, 3, 255, 128, 0`, the command of program P2. -/
def command : Command := { x := 1, y := 0, w := 5, h := 3, r := 255, g := 128, b := 0 }

/-- Its descriptor (V-E). -/
def descriptor : Descriptor := 0x0080FF0003000500000001

/-- An idle machine with that command presented. -/
def presented (fmt : PixelFormat) : State :=
  { small fmt .idle with
    host := { rst := false, strap := fmt, program := [descriptor], responses := [] } }

/-- That fill holding the target, at row 1 of the rows [0, 2). -/
def holding (fmt : PixelFormat) (ph : Phase) : State :=
  { small fmt ph with
    eng := { Engine.reset fmt Config.lut with
      cx := 1, cy := 0, cw := 5, ch := 3, cr := 255, cg := 128, cb := 0, hd := 7,
      hgt := 2, yb := 0, ye := 2, py := 1, ph := ph }
    tgt := { smallTarget with avail := [], lock := .held } }

/-- That fill at column `px` of row 1, whose visible columns are [2, 6). -/
def atPixel (fmt : PixelFormat) (px : Wide) : State :=
  { holding fmt .pix with
    eng := { (holding fmt .pix).eng with minx := 2, maxx := 9, xb := 2, xe := 6, px := px } }

/-! ## WellFormed refuses an ill-formed term, one per check -/

theorem test_ill_formed_rowBounds : Instr.wellFormed (.rowBounds 0 0x8000) = false := by decide
theorem test_ill_formed_rowRead_row : Instr.wellFormed (.rowRead 0 0xFFFF 0) = false := by decide
theorem test_ill_formed_rowRead_offset : Instr.wellFormed (.rowRead 0 0 0x8000) = false := by decide
theorem test_ill_formed_rowWrite_row : Instr.wellFormed (.rowWrite 0 0x8000 0 0) = false := by decide
theorem test_ill_formed_rowWrite_offset : Instr.wellFormed (.rowWrite 0 0 0xFFFF 0) = false := by
  decide
theorem test_ill_formed_mcmp : Instr.wellFormed (.mcmp 65 0) = false := by decide
theorem test_ill_formed_mpack_left : Instr.wellFormed (.mpack (-1) 0 true) = false := by decide
theorem test_ill_formed_mpack_right : Instr.wellFormed (.mpack 32768 0 true) = false := by decide
theorem test_ill_formed_mpack_above : Instr.wellFormed (.mpack 0 (-1) true) = false := by decide
theorem test_ill_formed_mpack_below : Instr.wellFormed (.mpack 0 32768 true) = false := by decide
theorem test_well_formed_bounds :
    Instr.wellFormed (.rowWrite 0 0x7FFF 0x7FFF 0) = true ∧
    Instr.wellFormed (.mpack 32767 32767 true) = true ∧ Instr.wellFormed (.mcmp 64 63) = true := by
  decide

/-! ## Decoding: words written out from R80 and R84, and the vectors V-E -/

theorem test_decode_fill :
    decode (.command 0x808080000A000AFFFDFFFD) = .ok (.fill (-3) (-3) 10 10 128 128 128) := by
  decide
theorem test_decode_fill_extremes :
    decode (.command 0x0000008000800080008000) =
      .ok (.fill (-32768) (-32768) (-32768) (-32768) 0 0 0) ∧
    decode (.command 0xFFFFFF7FFF7FFF7FFF7FFF) =
      .ok (.fill 32767 32767 32767 32767 255 255 255) := by
  decide
theorem test_encode_fillGray :
    encode (.fillGray 0 0 8 1 100) = some (.command 0x6464640001000800000000) ∧
    decode (.command 0x6464640001000800000000) = .ok (.fill 0 0 8 1 100 100 100) := by
  decide
theorem test_decode_acquire : decode (.request 0b000) = .ok .acquire := by decide
theorem test_decode_release : decode (.request 0b10100101001) = .ok (.release 0xA5) := by decide
theorem test_decode_height : decode (.request 0b10100101010) = .ok (.height 0xA5) := by decide
theorem test_decode_rowBounds :
    decode (.request 0b000000000000001110100101011) = .ok (.rowBounds 0xA5 3) := by
  decide
theorem test_decode_rowRead :
    decode (.request 0b0000000000000101000000000000001110100101100) =
      .ok (.rowRead 0xA5 3 5) := by
  decide
theorem test_decode_rowWrite :
    decode (.request 0b110000000000000000000101000000000000001110100101101) =
      .ok (.rowWrite 0xA5 3 5 0xC0) := by
  decide
theorem test_decode_reserved :
    decode (.request 0b110) = .error (.reservedCode 6) ∧
    decode (.request 0b111) = .error (.reservedCode 7) := by
  decide
theorem test_decode_stray :
    decode (.request 0b1000) = .error (.strayOperand 0) ∧
    decode (.request 0b100000000001) = .error (.strayOperand 1) ∧
    decode (.request 0b1000000000000000000000000011) = .error (.strayOperand 3) := by
  decide
theorem test_decode_negative :
    decode (.request 0b100000000000000000000000011) = .error (.negativeOperand 3) := by
  decide
theorem test_datapath_has_no_word :
    encode (.thresh 0 0) = none ∧ encode (.mpack 0 0 true) = none ∧ encode (.cpack 0 0 0) = none := by
  decide
theorem test_answers :
    decodeAcquireAnswer (encodeAcquireAnswer (some 7)) = some 7 ∧
    decodeAcquireAnswer 0b011111111 = none ∧
    decodeBoundsAnswer 0x00090002 = (2, 9) ∧ encodeBoundsAnswer 2 9 = 0x00090002 := by
  decide
theorem test_codes :
    [Phase.idle, .acq, .hgt, .row, .pix, .rel, .rsp].map Phase.code = [0, 1, 2, 3, 4, 5, 6] ∧
    [Status.success, .resourceUnavailable].map Status.code = [0, 1] ∧
    [PixelFormat.mono, .color].map PixelFormat.code = [0, 1] ∧
    [ReqKind.acquire, .release, .height, .rowBounds, .rowRead, .rowWrite].map ReqKind.code =
      [0, 1, 2, 3, 4, 5] := by
  decide
theorem test_text :
    commandText (.fill (-3) (-3) 10 10 128 128 128) = some "FILL -3, -3, 10, 10, 128, 128, 128" ∧
    commandText (.fillGray 0 0 8 1 100) = some "FILLGRAY 0, 0, 8, 1, 100" := by
  decide

/-! ## The default table is the recursive one of R102 -/

/-- One doubling of the recursive construction. -/
def double (m : List (List Nat)) : List (List Nat) :=
  (m.map fun row => row.map (4 * ·) ++ row.map (4 * · + 2)) ++
    (m.map fun row => row.map (4 * · + 3) ++ row.map (4 * · + 1))

theorem test_bayer : Config.bayer.map (·.map BitVec.toNat) = double (double (double [[0]])) := by
  decide

/-! ## One step of each operation; expected values from 95_test_vectors.md -/

/-- V-T: (13, 10) and (−1, −1). -/
theorem test_thresh :
    see (exec (.thresh 13 10) (small .mono .pix)) (·.wires.t) = some 46 ∧
    see (exec (.thresh (-1) (-1)) (small .mono .pix)) (·.wires.t) = some 21 := by
  decide

/-- V-V: Scenario B, and the extreme that needs 17 bits. -/
theorem test_clipV :
    see (exec (.clipV (-3) 10 20) (small .mono .hgt)) (fun s => (s.wires.yb, s.wires.ye)) =
      some (0, 7) ∧
    see (exec (.clipV (-32768) (-32768) 20) (small .mono .hgt)) (fun s => s.wires.ye.toInt) =
      some (-65536) := by
  decide

/-- V-H: a row narrower than the rectangle, and `maxX + 1` = 32768. -/
theorem test_clipH :
    see (exec (.clipH 10 5 12 13) (small .mono .row)) (fun s => (s.wires.xb, s.wires.xe)) =
      some (12, 14) ∧
    see (exec (.clipH 32767 32767 0 32767) (small .mono .row))
      (fun s => (s.wires.xb.toInt, s.wires.xe.toInt)) = some (32767, 32768) := by
  decide

/-- V-M1: the weights are 3, 4, 1 in that order. -/
theorem test_intens :
    see (exec (.intens 200 100 50) (small .mono .pix)) (·.wires.i) = some 131 ∧
    see (exec (.intens 255 255 255) (small .mono .pix)) (·.wires.i) = some 255 := by
  decide

/-- V-M2: 254 and 255. -/
theorem test_mscale :
    see (exec (.mscale 254) (small .mono .pix)) (·.wires.s) = some 63 ∧
    see (exec (.mscale 255) (small .mono .pix)) (·.wires.s) = some 64 := by
  decide

/-- V-M3: equality is OFF, and 64 exceeds 63. -/
theorem test_mcmp :
    see (exec (.mcmp 32 32) (small .mono .pix)) (·.wires.on) = some false ∧
    see (exec (.mcmp 64 63) (small .mono .pix)) (·.wires.on) = some true := by
  decide

/-- V-M4: column 13, off, FF becomes DF at offset 1. -/
theorem test_mpack_clears :
    see (exec (.mpack 13 0 false) (small .mono .pix)) (·.trace) =
      some [.rowRead 0 0 1 0xFF, .rowWrite 0 0 1 0xDF] := by
  decide

/-- V-M4: column 1, off, A5 stays A5, and the write is still issued. -/
theorem test_mpack_unchanged :
    see (exec (.mpack 1 1 false) (small .mono .pix)) (fun s => (s.trace, s.tgt.mem)) =
      some ([.rowRead 0 1 0 0xA5, .rowWrite 0 1 0 0xA5], smallTarget.mem) := by
  decide

/-- V-C1: 254 at thresholds 62 and 63. -/
theorem test_clevel :
    see (exec (.clevel 254 62) (small .color .pix)) (·.wires.level) = some 3 ∧
    see (exec (.clevel 254 63) (small .color .pix)) (·.wires.level) = some 2 := by
  decide

/-- V-C2: (1, 2, 3) and (3, 0, 0). -/
theorem test_cpack :
    see (exec (.cpack 1 2 3) (small .color .pix)) (·.wires.packed) = some 0xDB ∧
    see (exec (.cpack 3 0 0) (small .color .pix)) (·.wires.packed) = some 0xF0 := by
  decide

theorem test_acquire_grant :
    see (exec .acquire (small .mono .acq)) (fun s => (s.tgt.lock, s.wires.acq, s.tgt.avail)) =
      some (.held, some 7, []) := by
  decide
theorem test_acquire_held :
    see (exec .acquire (holding .mono .acq)) (fun s => (s.tgt.lock, s.wires.acq, s.trace)) =
      some (.held, none, [.acquire none]) := by
  decide
theorem test_release :
    see (exec (.release 7) (holding .mono .rel)) (fun s => (s.tgt.lock, s.tgt.mem)) =
      some (.free, smallTarget.mem) := by
  decide
theorem test_height : see (exec (.height 7) (holding .mono .hgt)) (·.wires.hgt) = some 2 := by decide
theorem test_rowBounds :
    see (exec (.rowBounds 7 1) (holding .mono .row)) (fun s => (s.wires.mn, s.wires.mx)) =
      some (2, 9) ∧
    see (exec (.rowBounds 7 5) (holding .mono .row)) (fun s => (s.wires.mn, s.wires.mx)) =
      some (0, -1) := by
  decide
theorem test_rowRead :
    see (exec (.rowRead 7 1 0) (holding .mono .pix)) (·.wires.data) = some 0xA5 ∧
    see (exec (.rowRead 7 0 0) (holding .mono .pix)) (·.wires.data) = some 0 := by
  decide
theorem test_rowWrite :
    see (exec (.rowWrite 7 0 2 0x3C) (holding .mono .pix)) (·.tgt.mem) =
      some [(1, 0xFF), (2, 0x3C), (65536, 0xA5)] := by
  decide
/-- Writing what an unlisted byte reads as removes the entry. -/
theorem test_rowWrite_zero :
    see (exec (.rowWrite 7 0 1 0) (holding .mono .pix)) (·.tgt.mem) = some [(65536, 0xA5)] := by
  decide

/-- R161: the operands are latched and PH becomes ACQ. -/
theorem test_fill_accepted :
    see (exec command.instr (small .color .idle)) (fun s => (s.eng.command, s.eng.ph, s.trace)) =
      some (command, .acq, []) := by
  decide
/-- P2, row 1, column 2: threshold 56, so F4. -/
theorem test_fill_pixel :
    see (exec command.instr (atPixel .color 2)) (fun s => (s.trace, s.eng.px)) =
      some ([.rowWrite 7 1 2 0xF4], 3) := by
  decide
theorem test_fillGray_accepted :
    see (exec (.fillGray 0 0 8 1 100) (small .color .idle)) (·.eng.command) =
      some { x := 0, y := 0, w := 8, h := 1, r := 100, g := 100, b := 100 } := by
  decide
/-- In PIX the fill in progress goes on whatever is presented (R208): the bit of (5, 1) at threshold
18 under (255, 128, 0), scaled 39, is set: A5 has it set already. -/
theorem test_fillGray_waits :
    see (exec (.fillGray 9 9 9 9 9) (atPixel .mono 5)) (·.trace) =
      some [.rowRead 7 1 0 0xA5, .rowWrite 7 1 0 0xA5] := by
  decide

/-! ## `step` and `withFetchWord` -/

theorem test_step_runs_command :
    see (step (State.reset.withFetchWord 88 0x0080FF0003000500000001)) (fun s => s.eng.command) =
      some command := by
  decide
theorem test_step_runs_rowWrite :
    see (step ((small .mono .idle).withFetchWord 51
        0b110000000000000000000101000000000000001110100101101)) (fun s => s.trace) =
      some [.rowRead 0xA5 3 5 0xC0, .rowWrite 0xA5 3 5 0xC0] := by
  decide
theorem test_step_runs_release :
    see (step ((small .mono .idle).withFetchWord 11 0b10100101001)) (fun s => s.trace) =
      some [.release 0xA5] := by
  decide
theorem test_step_reset :
    see (step { small .mono .idle with
        host := { rst := true, strap := .color, program := [], responses := [] } })
      (fun s => (s.eng.ph, s.eng.fmt, s.host.rst)) = some (.idle, .color, false) := by
  decide
/-- U5: no reset move while PH is not IDLE. -/
theorem test_step_reset_busy :
    refusal? (step { small .mono .rsp with
        host := { rst := true, strap := .mono, program := [], responses := [] } }) =
      some .resetDuringFill := by
  decide
/-- P1, row 0, columns 0 and 1: FF stays FF at threshold 0, and becomes FD at threshold 32. -/
theorem test_trace :
    Command.trace { x := 0, y := 0, w := 2, h := 1, r := 128, g := 128, b := 128 } .mono Config.lut
        { smallTarget with mem := [(0, 0xFF)] } 7 =
      [.acquire (some 7), .height 7 2, .rowBounds 7 0 0 15, .rowRead 7 0 0 0xFF,
       .rowWrite 7 0 0 0xFF, .rowRead 7 0 0 0xFF, .rowWrite 7 0 0 0xFD, .release 7] := by
  decide

/-! ## Witnesses: for every statement with hypotheses, something that meets them -/

theorem test_witness_DecodeEncodeAgree :
    Instr.wellFormed (.rowWrite 255 32767 32767 255) = true ∧
    encode (.rowWrite 255 32767 32767 255) =
      some (.request (requestWord 255 32767 32767 255 0b101)) := by
  decide
theorem test_witness_DecodedOperationEncodesBack :
    decode (.request 0b111111110111111111111111011111111111111111111111101) =
      .ok (.rowWrite 255 32767 32767 255) := by
  decide
theorem test_witness_ReservedCodesRefused :
    6 ≤ ((6 : RequestWord).extractLsb' 0 3).toNat ∧
    6 ≤ ((-1 : RequestWord).extractLsb' 0 3).toNat := by
  decide
theorem test_witness_StepRunsPresentedCommand :
    (presented .mono).host.rst = false ∧ (presented .mono).eng.ph = .idle ∧
    (presented .mono).host.program = descriptor :: [] ∧
    decode (.command descriptor) = .ok command.instr := by
  decide
theorem test_witness_StepContinuesFill :
    (small .mono .acq).host.rst = false ∧ (small .mono .acq).eng.ph ≠ .idle := by
  decide
theorem test_witness_IdleEngineWaits :
    (small .mono .idle).host.rst = false ∧ (small .mono .idle).eng.ph = .idle ∧
    (small .mono .idle).host.program = [] := by
  decide
/-- Both clauses: IDLE, and each of the six other phases. -/
theorem test_witness_ResetInputResetsEngine :
    ∀ ph ∈ [Phase.idle, .acq, .hgt, .row, .pix, .rel, .rsp],
      ({ small .mono ph with
          host := { rst := true, strap := .mono, program := [], responses := [] } } : State).host.rst =
        true ∧ (small .mono ph).eng.ph = ph := by
  decide
/-- At the largest column and row the port carries. -/
theorem test_witness_MpackResult :
    0 ≤ (32767 : Wide).toInt ∧ 0 ≤ (32767 : Wide).toInt ∧
    (32767 : Coord).toInt = (32767 : Wide).toInt ∧ (4095 : Coord).toInt = (32767 : Wide).toInt / 8 ∧
    .rowRead ∉ smallTarget.silent ∧ .rowWrite ∉ smallTarget.silent ∧
    smallTarget.hasByte (byteAddress 32767 4095) = true ∧ Memory.wf smallTarget.mem = true := by
  decide
theorem test_witness_WillGrant : smallTarget.WillGrant 7 := ⟨rfl, .inl rfl⟩
theorem test_witness_WillRefuse :
    (holding .mono .acq).tgt.WillRefuse ∧
    ({ smallTarget with avail := [.unavailable] } : Target).WillRefuse :=
  ⟨.inr ⟨rfl, rfl⟩, .inl rfl⟩
theorem test_witness_AcquireGranted :
    .acquire ∉ (small .mono .acq).tgt.silent ∧ (small .mono .acq).tgt.WillGrant 7 :=
  ⟨by decide, test_witness_WillGrant⟩
theorem test_witness_AcquireUnavailable :
    .acquire ∉ (holding .mono .acq).tgt.silent ∧ (holding .mono .acq).tgt.WillRefuse :=
  ⟨by decide, test_witness_WillRefuse.1⟩
theorem test_witness_ReleaseFreesLock : .release ∉ (holding .mono .rel).tgt.silent := by decide
theorem test_witness_HeightAnswers : .height ∉ (holding .mono .hgt).tgt.silent := by decide
theorem test_witness_RowBoundsAnswers :
    .rowBounds ∉ smallTarget.silent ∧ smallTarget.boundsAt (0 : Coord).toNat = (0, 15) ∧
    0 ≤ (0 : Coord).toInt := by
  decide
theorem test_witness_RowReadAnswers :
    .rowRead ∉ smallTarget.silent ∧ smallTarget.hasByte (byteAddress 1 0) = true := by
  decide
theorem test_witness_RowWriteStores :
    .rowWrite ∉ smallTarget.silent ∧ smallTarget.hasByte (byteAddress 1 0) = true ∧
    Memory.wf smallTarget.mem = true ∧ ((1, 1) : Coord × Coord) ≠ (1, 0) := by
  decide
/-- Every clause: the request's kind is silent, and the phase that issues it is reached. -/
theorem test_witness_SilentTargetSticks :
    (∀ k ∈ [ReqKind.acquire, .release, .height, .rowBounds, .rowRead, .rowWrite],
      k ∈ (silent .mono .acq k).tgt.silent) ∧
    (silent .mono .acq .acquire).eng.ph = .acq ∧ (silent .mono .rel .release).eng.ph = .rel ∧
    (silent .mono .hgt .height).eng.ph = .hgt := by
  decide
/-- A fill at this row and column, whose target never answers one kind of request. -/
def silentAt (ph : Phase) (py px : Wide) (k : ReqKind) : State :=
  { silent .mono ph k with
    eng := { Engine.reset .mono Config.lut with
      ph := ph, py := py, ye := 32768, px := px, xe := 32768 } }
/-- The clause of ROW at row 0 and at row 32767. -/
theorem test_witness_SilentTargetSticks_row :
    (let s := silentAt .row 0 0 .rowBounds
     .rowBounds ∈ s.tgt.silent ∧ s.eng.ph = .row ∧ s.eng.py.toInt < s.eng.ye.toInt ∧
     0 ≤ s.eng.py.toInt ∧ s.eng.py.toInt < 32768) ∧
    (let s := silentAt .row 32767 0 .rowBounds
     .rowBounds ∈ s.tgt.silent ∧ s.eng.ph = .row ∧ s.eng.py.toInt < s.eng.ye.toInt ∧
     0 ≤ s.eng.py.toInt ∧ s.eng.py.toInt < 32768) := by
  decide
/-- The two clauses of PIX at column 0 and at column 32767. -/
theorem test_witness_SilentTargetSticks_pix :
    (let s := silentAt .pix 0 0 .rowRead
     .rowRead ∈ s.tgt.silent ∧ s.eng.ph = .pix ∧ s.eng.fmt = .mono ∧
     s.eng.px.toInt < s.eng.xe.toInt ∧ 0 ≤ s.eng.py.toInt ∧ s.eng.py.toInt < 32768 ∧
     0 ≤ s.eng.px.toInt ∧ s.eng.px.toInt < 32768) ∧
    (let s := silentAt .pix 0 32767 .rowRead
     .rowRead ∈ s.tgt.silent ∧ s.eng.ph = .pix ∧ s.eng.fmt = .mono ∧
     s.eng.px.toInt < s.eng.xe.toInt ∧ 0 ≤ s.eng.py.toInt ∧ s.eng.py.toInt < 32768 ∧
     0 ≤ s.eng.px.toInt ∧ s.eng.px.toInt < 32768) := by
  decide
theorem test_witness_SilentTargetSticks_write :
    (let s := silentAt .pix 0 0 .rowWrite
     .rowWrite ∈ s.tgt.silent ∧ s.eng.ph = .pix ∧ s.eng.fmt = .mono ∧
     s.eng.px.toInt < s.eng.xe.toInt ∧ 0 ≤ s.eng.py.toInt ∧ s.eng.py.toInt < 32768 ∧
     0 ≤ s.eng.px.toInt ∧ s.eng.px.toInt < 32768 ∧ .rowRead ∉ s.tgt.silent ∧
     s.tgt.holes = []) ∧
    (let s := silentAt .pix 0 32767 .rowWrite
     .rowWrite ∈ s.tgt.silent ∧ s.eng.ph = .pix ∧ s.eng.fmt = .mono ∧
     s.eng.px.toInt < s.eng.xe.toInt ∧ 0 ≤ s.eng.py.toInt ∧ s.eng.py.toInt < 32768 ∧
     0 ≤ s.eng.px.toInt ∧ s.eng.px.toInt < 32768 ∧ .rowRead ∉ s.tgt.silent ∧
     s.tgt.holes = []) := by
  decide
/-- The clauses of ACQUIRE, ROW_BOUNDS and the accesses, each also in the phase of FILL that asks. -/
theorem test_witness_BrokenDutyRefused :
    let held : State := { small .mono .acq with tgt := { smallTarget with lock := .held } }
    let other : State := { small .mono .acq with tgt := { smallTarget with avail := [.other] } }
    let left : State := { holding .mono .row with
      tgt := { smallTarget with bounds := [(0, 15), (-1, 15)] } }
    held.tgt.silent = [] ∧ held.tgt.avail.head? = some (.grant 7) ∧ held.tgt.lock = .held ∧
    held.eng.ph = .acq ∧ other.tgt.silent = [] ∧ other.tgt.avail.head? = some .other ∧
    other.eng.ph = .acq ∧ left.tgt.silent = [] ∧ left.eng.ph = .row ∧
    (left.tgt.boundsAt (1 : Coord).toNat).1.toInt < 0 ∧ left.eng.py.toInt < left.eng.ye.toInt ∧
    0 ≤ left.eng.py.toInt ∧ (1 : Coord).toInt = left.eng.py.toInt := by
  decide
/-- The clause of an address without a byte, for MPACK and for FILL in both formats. -/
theorem test_witness_BrokenDutyRefused_hole :
    let s : State := { atPixel .mono 5 with tgt := { smallTarget with holes := [65536, 65541] } }
    s.tgt.silent = [] ∧ s.tgt.hasByte (byteAddress 1 0) = false ∧
    s.tgt.hasByte (byteAddress 1 5) = false ∧ 0 ≤ (5 : Wide).toInt ∧ 0 ≤ (1 : Wide).toInt ∧
    (1 : Coord).toInt = (1 : Wide).toInt ∧ (0 : Coord).toInt = (5 : Wide).toInt / 8 ∧
    s.eng.ph = .pix ∧ s.eng.px.toInt < s.eng.xe.toInt ∧ 0 ≤ s.eng.px.toInt ∧
    0 ≤ s.eng.py.toInt ∧ (1 : Coord).toInt = s.eng.py.toInt ∧
    (0 : Coord).toInt = pixelOffset s.eng.fmt s.eng.px.toInt ∧
    (5 : Coord).toInt = pixelOffset .color s.eng.px.toInt := by
  decide
/-- A fill at this row and column, beside a target that answers everything. -/
def portAt (ph : Phase) (py px : Wide) : State :=
  { silentAt ph py px .acquire with tgt := smallTarget }
/-- The clauses of a row or column off the port, at the values next to its ends. -/
theorem test_witness_BrokenDutyRefused_port :
    smallTarget.silent = [] ∧
    (-1 : Wide).toInt < 0 ∧ 32768 ≤ (32768 : Wide).toInt ∧
    (let s := portAt .row (-1) 0
     s.eng.ph = .row ∧ s.eng.py.toInt < s.eng.ye.toInt ∧ s.eng.py.toInt < 0) ∧
    (let e : Engine := { (portAt .row 32768 0).eng with ye := 32769 }
     e.ph = .row ∧ e.py.toInt < e.ye.toInt ∧ 32768 ≤ e.py.toInt) ∧
    (let s := portAt .pix 0 (-1)
     s.eng.ph = .pix ∧ s.eng.px.toInt < s.eng.xe.toInt ∧ s.eng.px.toInt < 0) ∧
    (let e : Engine := { (portAt .pix 0 32768).eng with fmt := .color, xe := 32769 }
     e.ph = .pix ∧ e.px.toInt < e.xe.toInt ∧ e.fmt = .color ∧ 32768 ≤ e.px.toInt) := by
  decide
/-- Each refusal and the fault, met. -/
theorem test_stops :
    refusal? (exec .acquire { small .mono .acq with tgt := { smallTarget with lock := .held } }) =
      some .grantWhileHeld ∧
    refusal? (exec (.mpack (-1) 0 true) (small .mono .pix)) = some .outsidePort ∧
    fault? (exec command.instr (silent .mono .hgt .height)) = some (.noAnswer .height) := by
  decide
theorem test_witness_FillAccepted :
    (small .mono .idle).eng.ph = .idle ∧ (small .mono .idle).wires = Wires.rest := by
  decide
theorem test_witness_FillAcquires_granted :
    (small .mono .acq).eng.ph = .acq ∧ .acquire ∉ (small .mono .acq).tgt.silent ∧
    (small .mono .acq).wires = Wires.rest ∧ (small .mono .acq).tgt.WillGrant 7 :=
  ⟨rfl, by decide, rfl, test_witness_WillGrant⟩
theorem test_witness_FillAcquires_refused :
    (holding .mono .acq).eng.ph = .acq ∧ .acquire ∉ (holding .mono .acq).tgt.silent ∧
    (holding .mono .acq).wires = Wires.rest ∧ (holding .mono .acq).tgt.WillRefuse :=
  ⟨rfl, by decide, rfl, test_witness_WillRefuse.1⟩
theorem test_witness_FillReadsHeight :
    (holding .mono .hgt).eng.ph = .hgt ∧ .height ∉ (holding .mono .hgt).tgt.silent ∧
    (holding .mono .hgt).wires = Wires.rest := by
  decide
/-- A row remains at `PY = YE − 1`, and none at `PY = YE`. -/
theorem test_witness_FillOpensRow :
    let s := holding .mono .row
    s.eng.ph = .row ∧ s.wires = Wires.rest ∧ s.eng.py.toInt < s.eng.ye.toInt ∧ 0 ≤ s.eng.py.toInt ∧
    (1 : Coord).toInt = s.eng.py.toInt ∧ s.tgt.boundsAt (1 : Coord).toNat = (2, 9) ∧
    0 ≤ (2 : Coord).toInt ∧ .rowBounds ∉ s.tgt.silent ∧
    ¬ ({ s.eng with py := 2 } : Engine).py.toInt < s.eng.ye.toInt := by
  decide
/-- At the last column, `PX = XE − 1`. -/
theorem test_witness_FillMonoPixel :
    let s := atPixel .mono 5
    s.eng.ph = .pix ∧ s.eng.fmt = .mono ∧ s.wires = Wires.rest ∧ s.eng.px.toInt < s.eng.xe.toInt ∧
    0 ≤ s.eng.px.toInt ∧ 0 ≤ s.eng.py.toInt ∧ (1 : Coord).toInt = s.eng.py.toInt ∧
    (0 : Coord).toInt = s.eng.px.toInt / 8 ∧ .rowRead ∉ s.tgt.silent ∧ .rowWrite ∉ s.tgt.silent ∧
    s.tgt.hasByte (byteAddress 1 0) = true ∧ Memory.wf s.tgt.mem = true := by
  decide
theorem test_witness_FillColorPixel :
    let s := atPixel .color 5
    s.eng.ph = .pix ∧ s.eng.fmt = .color ∧ s.wires = Wires.rest ∧ s.eng.px.toInt < s.eng.xe.toInt ∧
    0 ≤ s.eng.px.toInt ∧ 0 ≤ s.eng.py.toInt ∧ (1 : Coord).toInt = s.eng.py.toInt ∧
    (5 : Coord).toInt = s.eng.px.toInt ∧ .rowWrite ∉ s.tgt.silent ∧
    s.tgt.hasByte (byteAddress 1 5) = true ∧ Memory.wf s.tgt.mem = true := by
  decide
theorem test_witness_FillClosesRow :
    let s := atPixel .mono 6
    s.eng.ph = .pix ∧ s.wires = Wires.rest ∧ ¬ s.eng.px.toInt < s.eng.xe.toInt ∧
    s.eng.py.toInt < 65535 := by
  decide
theorem test_witness_FillReleases :
    (holding .mono .rel).eng.ph = .rel ∧ .release ∉ (holding .mono .rel).tgt.silent ∧
    (holding .mono .rel).wires = Wires.rest := by
  decide
theorem test_witness_FillResponds :
    (small .mono .rsp).eng.ph = .rsp ∧ (small .mono .rsp).wires = Wires.rest := by
  decide
theorem test_witness_FillGrayIsFill :
    (small .color .idle).eng.ph = .idle ∧ (small .color .idle).wires = Wires.rest := by
  decide
theorem test_witness_BusyEngineIgnoresPort :
    (atPixel .mono 5).eng.ph ≠ .idle ∧
    (next? (exec command.instr (atPixel .mono 5))).isSome = true := by
  decide
/-- A next state in every phase, and in PIX in both formats. -/
theorem test_witness_FillStepFrame :
    ∀ ph ∈ [Phase.idle, .acq, .hgt, .row, .rel, .rsp],
      (next? (exec command.instr (holding .mono ph))).isSome = true := by
  decide
theorem test_witness_FillStepFrame_pix :
    (next? (exec command.instr (atPixel .mono 2))).isSome = true ∧
    (next? (exec command.instr (atPixel .color 5))).isSome = true ∧
    (next? (exec command.instr (atPixel .color 6))).isSome = true := by
  decide
/-- The invariant of a fill at a pixel, the first and the last visible column of its row. -/
theorem test_inv_atPixel (fmt : PixelFormat) (px : Wide) (h : px = 2 ∨ px = 5) :
    Inv (atPixel fmt px) := by
  rcases h with rfl | rfl <;> cases fmt <;>
    exact ⟨rfl, rfl, fun _ => rfl,
      fun _ => ⟨rfl, by decide, by decide, by decide, by decide⟩,
      fun _ => ⟨by decide, by decide, by decide, by decide, by decide, by decide, by decide⟩⟩
theorem test_witness_StepKeepsInv :
    Inv (atPixel .mono 5) ∧ (next? (step (atPixel .mono 5))).isSome = true :=
  ⟨test_inv_atPixel .mono 5 (.inr rfl), by decide⟩
theorem test_witness_PixelIsVisible :
    Inv (atPixel .color 2) ∧ (atPixel .color 2).eng.ph = .pix ∧
    (atPixel .color 2).eng.px.toInt < (atPixel .color 2).eng.xe.toInt :=
  ⟨test_inv_atPixel .color 2 (.inl rfl), rfl, by decide⟩
theorem test_witness_AccessesStayInBounds :
    Inv (atPixel .color 2) ∧ (next? (step (atPixel .color 2))).isSome = true :=
  ⟨test_inv_atPixel .color 2 (.inl rfl), by decide⟩
theorem test_witness_StepFollowsPhaseGraph :
    see (exec command.instr (atPixel .mono 6)) (·.eng.ph) = some .row ∧
    see (exec command.instr (holding .mono .acq)) (·.eng.ph) = some .rsp := by
  decide
theorem test_witness_RequestsOfPhase :
    see (exec command.instr (atPixel .mono 5)) (·.trace.map Txn.kind) =
      some [.rowRead, .rowWrite] ∧
    see (exec command.instr (atPixel .color 5)) (·.trace.map Txn.kind) = some [.rowWrite] := by
  decide
theorem test_witness_ResponsesOnlyInRsp :
    see (step (holding .mono .rsp)) (·.host.responses) = some [.success] ∧
    see (step (holding .mono .rel)) (·.host.responses) = some [] := by
  decide
theorem test_witness_ConfigurationAndTargetHold :
    (next? (step (atPixel .mono 5))).isSome = true ∧ (atPixel .mono 5).host.rst = false := by
  decide
/-- The small target keeps its duties in both formats. -/
theorem test_keeps_duties (fmt : PixelFormat) : smallTarget.KeepsDuties fmt := by
  refine ⟨rfl, fun y hy => ?_, fun y _ x _ _ => rfl⟩
  have hy : (y : Int) < 2 := hy
  have hy : y < 2 := by omega
  interval_cases y <;> decide
theorem test_witness_GrantedFillAgrees :
    (presented .mono).host.rst = false ∧ (presented .mono).eng.ph = .idle ∧
    (presented .mono).host.program = descriptor :: [] ∧
    decode (.command descriptor) = .ok command.instr ∧ Memory.wf (presented .mono).tgt.mem = true ∧
    (presented .mono).tgt.KeepsDuties (presented .mono).eng.fmt ∧
    (presented .mono).tgt.WillGrant 7 :=
  ⟨rfl, rfl, rfl, by decide, by decide, test_keeps_duties .mono, test_witness_WillGrant⟩
theorem test_witness_GrantedFillTrace :
    (presented .color).host.rst = false ∧ (presented .color).eng.ph = .idle ∧
    (presented .color).host.program = descriptor :: [] ∧
    decode (.command descriptor) = .ok command.instr ∧
    (presented .color).tgt.KeepsDuties (presented .color).eng.fmt ∧
    (presented .color).tgt.WillGrant 7 :=
  ⟨rfl, rfl, rfl, by decide, test_keeps_duties .color, test_witness_WillGrant⟩
/-- An idle machine with the command presented, whose target answers UNAVAILABLE. -/
def presentedRefused : State :=
  { presented .mono with tgt := { smallTarget with avail := [.unavailable] } }
theorem test_witness_RefusedFill :
    presentedRefused.host.rst = false ∧ presentedRefused.eng.ph = .idle ∧
    presentedRefused.host.program = descriptor :: [] ∧
    decode (.command descriptor) = .ok command.instr ∧ .acquire ∉ presentedRefused.tgt.silent ∧
    presentedRefused.tgt.WillRefuse :=
  ⟨rfl, rfl, rfl, by decide, by decide, test_witness_WillRefuse.2⟩
/-- Two fills at a pixel that differ in the status latch and a wire. -/
theorem test_witness_DeadRegistersAreIgnored_pix :
    SameLive (atPixel .mono 5)
      { atPixel .mono 5 with
        eng := { (atPixel .mono 5).eng with st := .resourceUnavailable }
        wires := { Wires.rest with data := 1 } } :=
  ⟨rfl, rfl, rfl, rfl, rfl, rfl, fun _ => rfl, fun _ => rfl, fun _ => ⟨rfl, rfl, rfl, rfl⟩,
    fun _ => ⟨rfl, rfl, rfl, rfl, rfl⟩, fun h => absurd h (by decide)⟩
/-- Two idle machines that differ in every working register. -/
theorem test_witness_DeadRegistersAreIgnored_idle :
    SameLive (presented .mono)
      { presented .mono with
        eng := { fmt := .mono, lut := Config.lut, cx := 1, cy := 1, cw := 1, ch := 1, cr := 1,
                 cg := 1, cb := 1, hd := 1, hgt := 1, yb := 1, ye := 1, minx := 1, maxx := 1,
                 xb := 1, xe := 1, py := 1, px := 1, ph := .idle, st := .resourceUnavailable } } :=
  ⟨rfl, rfl, rfl, rfl, rfl, rfl, fun h => absurd rfl h, fun h => absurd h (by decide),
    fun h => absurd h (by decide), fun h => absurd h (by decide), fun h => absurd h (by decide)⟩
theorem test_witness_FillTerminates :
    Inv (atPixel .mono 5) ∧ (atPixel .mono 5).host.rst = false ∧ (atPixel .mono 5).eng.ph ≠ .idle ∧
    (atPixel .mono 5).tgt.KeepsDuties (atPixel .mono 5).eng.fmt := by
  refine ⟨test_inv_atPixel .mono 5 (.inr rfl), rfl, by decide, ?_⟩
  exact ⟨rfl, (test_keeps_duties .mono).minX_nonneg, fun y _ x _ _ => rfl⟩
/-- The case of phase ACQ: the coming ACQUIRE is answered. -/
theorem test_witness_FillTerminates_acq :
    Inv (small .mono .acq) ∧ (small .mono .acq).host.rst = false ∧
    (small .mono .acq).eng.ph ≠ .idle ∧
    (small .mono .acq).tgt.KeepsDuties (small .mono .acq).eng.fmt ∧
    (∃ hd, (small .mono .acq).tgt.WillGrant hd) :=
  ⟨⟨rfl, rfl, fun h => absurd h (by decide), fun h => absurd h (by decide),
      fun h => absurd h (by decide)⟩,
    rfl, by decide, test_keeps_duties .mono, ⟨7, test_witness_WillGrant⟩⟩
/-- A rectangle of width 0 and one of negative height. -/
theorem test_witness_VisibleSet :
    ({ command with w := 0 } : Command).w.toInt ≤ 0 ∧
    ({ command with h := -1 } : Command).h.toInt ≤ 0 ∧
    command.visible smallTarget 5 1 = true := by
  decide
theorem test_witness_IsPermutation : IsPermutation Config.lut := by
  show (_ : List Threshold).Perm _
  decide
theorem test_witness_LevelLaws : (84 : Byte).toNat ≤ (85 : Byte).toNat := by decide
/-- Two rectangles side by side, of one colour, and the one they tile. -/
theorem test_witness_FillIdempotentAndTiles :
    let c : Command := { command with w := 2 }
    let c' : Command := { command with x := 3, w := 3 }
    (c.r, c.g, c.b) = (command.r, command.g, command.b) ∧
    (c'.r, c'.g, c'.b) = (command.r, command.g, command.b) ∧
    ∀ col j : Int, command.visible smallTarget col j =
      (c.visible smallTarget col j || c'.visible smallTarget col j) := by
  refine ⟨rfl, rfl, fun col j => ?_⟩
  rw [Bool.eq_iff_iff, Bool.or_eq_true]
  unfold Command.visible
  rw [decide_eq_true_eq, decide_eq_true_eq, decide_eq_true_eq]
  simp only [Command.rows, Command.columns, clipV, clipH]
  have h1 : command.x.toInt = 1 := by decide
  have h2 : command.w.toInt = 5 := by decide
  have h3 : (2 : Coord).toInt = 2 := by decide
  have h4 : (3 : Coord).toInt = 3 := by decide
  rw [h1, h2, h3, h4]
  omega
theorem test_witness_PixelWritesCommuteAndMerge :
    Memory.wf smallTarget.mem = true ∧ (0 : Nat) < 8 ∧ (7 : Nat) < 8 ∧
    ((1, 0) : Nat × Nat) ≠ (1, 7) ∧ 3 + 5 ≤ 8 := by
  decide

end Sys2Proof.Tests
end

section
/-! SUPPORT. What the proofs about the state share: the target once it has answered an ACQUIRE, the two
outcomes of phase ACQ, the store of a pixel in either format, and a step as a step of FILL. -/

namespace Sys2Proof.Machine

/-! ## The target once an ACQUIRE is answered -/

@[simp] theorem Target.answered_lock (t : Target) : t.answered.lock = t.lock := by
  unfold Target.answered
  split <;> rfl

@[simp] theorem Target.answered_height (t : Target) : t.answered.height = t.height := by
  unfold Target.answered
  split <;> rfl

@[simp] theorem Target.answered_bounds (t : Target) : t.answered.bounds = t.bounds := by
  unfold Target.answered
  split <;> rfl

@[simp] theorem Target.answered_mem (t : Target) : t.answered.mem = t.mem := by
  unfold Target.answered
  split <;> rfl

@[simp] theorem Target.answered_holes (t : Target) : t.answered.holes = t.holes := by
  unfold Target.answered
  split <;> rfl

@[simp] theorem Target.answered_silent (t : Target) : t.answered.silent = t.silent := by
  unfold Target.answered
  split <;> rfl

/-! ## The two outcomes of phase ACQ (R162) -/

/-- A granted ACQUIRE leads to HGT with the handle latched. -/
@[simp] theorem afterAcquire_granted (s : State) (t : Target) (hd : Handle) :
    (s.answerAcquire t (some hd)).afterAcquire =
      (s.answerAcquire t (some hd)).latch { s.eng with hd := hd, ph := .hgt } := rfl

/-- A refused ACQUIRE raises ResourceUnavailable. -/
@[simp] theorem afterAcquire_unavailable (s : State) (t : Target) :
    (s.answerAcquire t none).afterAcquire =
      (s.answerAcquire t none).raiseResourceUnavailable := rfl

/-! ## The pixel, in either format -/

/-- A pixel operation stores one byte, that of pixel (PX, PY), and leaves the registers, the host and
the rest of the target as they are (R57, R65, R157). -/
theorem pixel_next {s u : State} (h : pixel s = .next u) :
    ∃ (row i : Coord) (v : Byte), toPort s.eng.py.toInt = some row ∧
      toPort (pixelOffset s.eng.fmt s.eng.px.toInt) = some i ∧
      u.eng = s.eng ∧ u.host = s.host ∧ u.tgt = s.tgt.store (byteAddress row i) v := by
  unfold pixel at h
  split at h
  · next hf =>
    obtain ⟨row, i, hy, hi, -, -, -, rfl⟩ := monoPixel_next.1 h
    exact ⟨row, i, _, hy, by rwa [hf], rfl, rfl, rfl⟩
  · next hf =>
    obtain ⟨row, i, hy, hi, -, -, rfl⟩ := colorPixel_next.1 h
    exact ⟨row, i, _, hy, by rwa [hf], rfl, rfl, rfl⟩

/-- Phase PIX, field by field: the byte of pixel (PX, PY) stored and PX stepped, or the row closed
(R165). -/
theorem phasePix_cases {s t : State} (h : phasePix s = .next t) :
    (s.eng.px.toInt < s.eng.xe.toInt ∧
      t.eng = { s.eng with px := s.eng.px + 1, ph := .pix } ∧ t.host = s.host ∧
      t.wires = Wires.rest ∧
      ∃ (row i : Coord) (v : Byte), toPort s.eng.py.toInt = some row ∧
        toPort (pixelOffset s.eng.fmt s.eng.px.toInt) = some i ∧
        t.tgt = s.tgt.store (byteAddress row i) v) ∨
    (¬ s.eng.px.toInt < s.eng.xe.toInt ∧
      t = (s.latch { s.eng with py := s.eng.py + 1, ph := .row }).settle) := by
  obtain ⟨hcol, u, hu, rfl⟩ | hdone := phasePix_next.1 h
  · obtain ⟨row, i, v, hy, hi, heng, hhost, htgt⟩ := pixel_next hu
    exact .inl ⟨hcol, by simp [heng], hhost, rfl, row, i, v, hy, hi, htgt⟩
  · exact .inr hdone

/-! ## A step as a step of FILL (R160, R161) -/

theorem exec_instr (c : Command) (s : State) :
    exec c.instr s = execFill c.x c.y c.w c.h c.r c.g c.b s := rfl

/-- The command a descriptor holds (R80). -/
def descriptorCommand (d : Descriptor) : Command :=
  { x := d.extractLsb' 0 16, y := d.extractLsb' 16 16, w := d.extractLsb' 32 16,
    h := d.extractLsb' 48 16, r := d.extractLsb' 64 8, g := d.extractLsb' 72 8,
    b := d.extractLsb' 80 8 }

theorem decodeCommand_eq_instr (d : Descriptor) :
    decodeCommand d = (descriptorCommand d).instr := rfl

theorem currentCommand_eq_instr (s : State) : s.currentCommand = s.eng.command.instr := rfl

/-- A step resets the engine, changes nothing, or is a step of FILL, from the state itself or with the
command accepted taken off the port. -/
theorem step_next_cases {s t : State} (h : step s = .next t) :
    (s.host.rst = true ∧ t = s.resetEngine) ∨ t = s ∨
    ∃ (c : Command) (u : State), (u = s ∨ u = s.takeCommand) ∧ exec c.instr u = .next t := by
  obtain ⟨hr, -, ht⟩ | ⟨-, -, -, ht⟩ | ⟨-, -, d, ds, -, he⟩ | ⟨-, -, he⟩ := step_cases h
  · exact .inl ⟨hr, ht⟩
  · exact .inr (.inl ht)
  · exact .inr (.inr ⟨descriptorCommand d, _, .inr rfl, he⟩)
  · exact .inr (.inr ⟨s.eng.command, _, .inl rfl, he⟩)

end Sys2Proof.Machine
end

section
/-! Every step keeps the invariant: one lemma per phase of FILL, then the step. -/

namespace Sys2Proof.Machine

/-- Outside the hold the invariant asks for the canonical form and wires at rest only. -/
theorem inv_of_not_inHold {s : State} (hmem : Memory.wf s.tgt.mem = true)
    (hwires : s.wires = Wires.rest) (hph : s.eng.ph.inHold = false) : Inv s where
  memory := hmem
  wires := hwires
  hold h := by simp [hph] at h
  rows h := by rcases h with h | h <;> simp [h, Phase.inHold] at hph
  columns h := by simp [h, Phase.inHold] at hph

/-- Settles O41: the engine is IDLE and the memory lists nothing. -/
theorem resetMeetsInv : Obligations.ResetMeetsInv :=
  inv_of_not_inHold rfl rfl rfl

theorem resetEngine_keeps_inv {s : State} (hi : Inv s) : Inv s.resetEngine :=
  inv_of_not_inHold hi.memory rfl rfl

theorem takeCommand_keeps_inv {s : State} (hi : Inv s) : Inv s.takeCommand := by
  obtain ⟨hmem, hwires, hhold, hrows, hcols⟩ := hi
  exact ⟨hmem, hwires, hhold, fun h => { hrows h with }, fun h => { hcols h with }⟩

theorem phaseIdle_keeps_inv {x y w h : Coord} {r g b : Byte} {s t : State} (hi : Inv s)
    (ht : phaseIdle x y w h r g b s = .next t) : Inv t := by
  cases ht
  exact inv_of_not_inHold hi.memory rfl rfl

theorem phaseAcq_keeps_inv {s t : State} (hi : Inv s) (ht : phaseAcq s = .next t) : Inv t := by
  obtain ⟨-, _ | hd, -, rfl⟩ := phaseAcq_next ht
  · exact inv_of_not_inHold (by simpa using hi.memory) rfl rfl
  · exact ⟨by simpa using hi.memory, rfl, fun _ => rfl, by simp, by simp⟩

/-- The clip of HGT puts PY at YB, in its range. -/
theorem phaseHgt_keeps_inv {s t : State} (hi : Inv s) (hph : s.eng.ph = .hgt)
    (ht : phaseHgt s = .next t) : Inv t := by
  obtain ⟨-, rfl⟩ := phaseHgt_next.1 ht
  obtain ⟨hyb, hye⟩ := clipV_exact s.eng.cy s.eng.ch s.tgt.height
  exact ⟨hi.memory, rfl, fun _ => hi.hold (by rw [hph]; rfl),
    fun _ => ⟨rfl, hyb, hye, le_refl _, le_max_left _ _⟩, fun h => nomatch h⟩

/-- The clip of ROW puts PX at XB, in its range; PY stays. -/
theorem openRow_keeps_inv {s t : State} (hi : Inv s) (hph : s.eng.ph = .row)
    (hrow : s.eng.py.toInt < s.eng.ye.toInt) (ht : openRow s = .next t) : Inv t := by
  obtain ⟨y, hy, -, hmn, rfl⟩ := openRow_next.1 ht
  have hrows := hi.rows (.inl hph)
  obtain ⟨hxb, hxe⟩ := clipH_exact s.eng.cx s.eng.cw (s.tgt.boundsAt y.toNat).1
    (s.tgt.boundsAt y.toNat).2
  have hbounds : s.tgt.boundsAt y.toNat = s.tgt.boundsAt s.eng.py.toInt.toNat := by
    rw [← toPort_toNat hy, Int.toNat_natCast]
  exact ⟨hi.memory, rfl, fun _ => hi.hold (by rw [hph]; rfl), fun _ => { hrows with },
    fun _ => ⟨hrow, hbounds, hmn, hxb, hxe, le_refl _, le_max_left _ _⟩⟩

theorem phaseRow_keeps_inv {s t : State} (hi : Inv s) (hph : s.eng.ph = .row)
    (ht : phaseRow s = .next t) : Inv t := by
  obtain ⟨hrow, ho⟩ | ⟨-, rfl⟩ := phaseRow_next.1 ht
  · exact openRow_keeps_inv hi hph hrow ho
  · exact ⟨hi.memory, rfl, fun _ => hi.hold (by rw [hph]; rfl), by simp, by simp⟩

/-- A column remains: PX rises by one, at most to XE. None remains: PY rises by one, at most to YE. -/
theorem phasePix_keeps_inv {s t : State} (hi : Inv s) (hph : s.eng.ph = .pix)
    (ht : phasePix s = .next t) : Inv t := by
  have hrows := hi.rows (.inr hph)
  have hcols := hi.columns hph
  have hhold : s.tgt.lock = .held := hi.hold (by rw [hph]; rfl)
  obtain ⟨hcol, heng, -, hwires, row, i, v, -, -, htgt⟩ | ⟨-, rfl⟩ := phasePix_cases ht
  · have hpx : (s.eng.px + 1).toInt = s.eng.px.toInt + 1 :=
      wide_succ_toInt (by have := wide_toInt_bounds s.eng.xe; omega)
    have hfrom : s.eng.xb.toInt ≤ (s.eng.px + 1).toInt := by
      have := hcols.from_first; omega
    have hto : (s.eng.px + 1).toInt ≤ max s.eng.xb.toInt s.eng.xe.toInt := by omega
    obtain ⟨e, g, p, w, tr⟩ := t
    obtain rfl : e = _ := heng
    obtain rfl : g = _ := htgt
    exact ⟨Memory.wf_write hi.memory _ _, hwires, fun _ => hhold, fun _ => { hrows with },
      fun _ => { hcols with from_first := hfrom, to_last := hto }⟩
  · have hrem := hcols.row_remains
    have hpy : (s.eng.py + 1).toInt = s.eng.py.toInt + 1 :=
      wide_succ_toInt (by have := wide_toInt_bounds s.eng.ye; omega)
    have hfrom : s.eng.yb.toInt ≤ (s.eng.py + 1).toInt := by
      have := hrows.from_first; omega
    have hto : (s.eng.py + 1).toInt ≤ max s.eng.yb.toInt s.eng.ye.toInt := by omega
    exact ⟨hi.memory, rfl, fun _ => hhold,
      fun _ => { hrows with from_first := hfrom, to_last := hto }, by simp⟩

theorem phaseRel_keeps_inv {s t : State} (hi : Inv s) (ht : phaseRel s = .next t) : Inv t := by
  obtain ⟨-, rfl⟩ := phaseRel_next.1 ht
  exact inv_of_not_inHold hi.memory rfl rfl

theorem phaseRsp_keeps_inv {s t : State} (hi : Inv s) (ht : phaseRsp s = .next t) : Inv t := by
  cases ht
  exact inv_of_not_inHold hi.memory rfl rfl

theorem fill_keeps_inv {c : Command} {s t : State} (hi : Inv s) (ht : exec c.instr s = .next t) :
    Inv t := by
  rcases execFill_cases ht with
    ⟨-, h⟩ | ⟨-, h⟩ | ⟨hph, h⟩ | ⟨hph, h⟩ | ⟨hph, h⟩ | ⟨-, h⟩ | ⟨-, h⟩
  · exact phaseIdle_keeps_inv hi h
  · exact phaseAcq_keeps_inv hi h
  · exact phaseHgt_keeps_inv hi hph h
  · exact phaseRow_keeps_inv hi hph h
  · exact phasePix_keeps_inv hi hph h
  · exact phaseRel_keeps_inv hi h
  · exact phaseRsp_keeps_inv hi h

/-- Settles O42: a step is a reset, nothing, or a step of FILL, and each keeps the invariant. -/
theorem stepKeepsInv : Obligations.StepKeepsInv := by
  intro s t hi h
  obtain ⟨-, rfl⟩ | rfl | ⟨c, u, rfl | rfl, he⟩ := step_next_cases h
  · exact resetEngine_keeps_inv hi
  · exact hi
  · exact fill_keeps_inv hi he
  · exact fill_keeps_inv (takeCommand_keeps_inv hi) he

end Sys2Proof.Machine
end

section
/-! Dead registers are ignored (R35, R37). Each phase is written as its checks around one next state;
two machines that agree on what is live pass the same checks and reach states that agree again. -/

namespace Sys2Proof.Machine

/-! ## The checks, with what follows them inside -/

theorem andThen_serve (k : ReqKind) (s : State) (r : Result) (f : State → Result) :
    andThen (serve k s r) f = serve k s (andThen r f) := by
  unfold serve
  split <;> rfl

theorem andThen_withByte (s : State) (y i : Coord) (r : Result) (f : State → Result) :
    andThen (withByte s y i r) f = withByte s y i (andThen r f) := by
  unfold withByte
  split <;> rfl

/-- Phase HGT is HEIGHT and then one next state (R163). -/
theorem phaseHgt_eq (s : State) :
    phaseHgt s = serve .height s
      (.next ((s.latch (afterHeight s)).record (.height s.eng.hd s.tgt.height)).settle) := by
  unfold phaseHgt execHeight
  rw [andThen_serve]
  rfl

/-- Phase ROW with a row remaining is ROW_BOUNDS and then one next state (R164). -/
theorem openRow_eq (s : State) :
    openRow s = withPort s.eng.py.toInt 0 fun y _ => serve .rowBounds s
      (if (s.tgt.boundsAt y.toNat).1.toInt < 0 then .refused .negativeMinX
       else .next ((s.latch (afterBounds s (s.tgt.boundsAt y.toNat).1
          (s.tgt.boundsAt y.toNat).2)).record (.rowBounds s.eng.hd y
            (s.tgt.boundsAt y.toNat).1 (s.tgt.boundsAt y.toNat).2)).settle) := by
  unfold openRow execRowBounds
  congr 1
  funext y _
  rw [andThen_serve]
  congr 1
  split <;> rfl

/-- Phase REL is RELEASE and then one next state (R166). -/
theorem phaseRel_eq (s : State) :
    phaseRel s = serve .release s
      (.next (((s.retarget { s.tgt with lock := .free }).record (.release s.eng.hd)).latch
        { s.eng with st := .success, ph := .rsp }).settle) := by
  unfold phaseRel execRelease
  rw [andThen_serve]
  rfl

/-- The byte that the monochrome pixel (PX, PY) stores at offset `i` of row `row` (R125, R129). -/
def monoPixelByte (s : State) (row i : Coord) : Byte :=
  mergeBit (Memory.read s.tgt.mem (byteAddress row i)) (monoBit s.eng.px.toInt)
    (monoOn s.eng.cr s.eng.cg s.eng.cb (threshold s.eng.lut s.eng.px.toInt s.eng.py.toInt))

/-- The monochrome pixel is ROW_READ, ROW_WRITE and then one next state (R125, R129). -/
theorem monoPixel_eq (s : State) :
    monoPixel s = withPort s.eng.py.toInt (monoOffset s.eng.px.toInt) fun row i =>
      serve .rowRead s (withByte s row i (serve .rowWrite s (withByte s row i
        (.next (((s.drive (monoWires s)).loadByte s.eng.hd row i).storeByte s.eng.hd row i
          (monoPixelByte s row i)))))) := by
  unfold monoPixel execThresh execIntens execMscale execMcmp execMpack execRowRead
  simp only [andThen_next, andThen_serve, andThen_withByte]
  rfl

/-- The byte that the colour pixel (PX, PY) stores (R140). -/
def colorPixelByte (s : State) : Byte :=
  colorByte s.eng.cr s.eng.cg s.eng.cb (threshold s.eng.lut s.eng.px.toInt s.eng.py.toInt)

/-- The colour pixel is ROW_WRITE and then one next state (R140, R143). -/
theorem colorPixel_eq (s : State) :
    colorPixel s = withPort s.eng.py.toInt (colorOffset s.eng.px.toInt) fun row i =>
      serve .rowWrite s (withByte s row i
        (.next ((s.drive (colorWires s)).storeByte s.eng.hd row i (colorPixelByte s)))) := rfl

/-! ## The checks of two machines that agree on the target -/

theorem sameOutcome_serve {a b : State} {k : ReqKind} {ra rb : Result} (ht : a.tgt = b.tgt)
    (h : SameOutcome ra rb) : SameOutcome (serve k a ra) (serve k b rb) := by
  unfold serve
  rw [ht]
  split
  · rfl
  · exact h

theorem sameOutcome_withByte {a b : State} {y i : Coord} {ra rb : Result} (ht : a.tgt = b.tgt)
    (h : SameOutcome ra rb) : SameOutcome (withByte a y i ra) (withByte b y i rb) := by
  unfold withByte
  rw [ht]
  split
  · exact h
  · rfl

theorem sameOutcome_withPort {y i : Int} {ka kb : Coord → Coord → Result}
    (h : ∀ cy ci, SameOutcome (ka cy ci) (kb cy ci)) :
    SameOutcome (withPort y i ka) (withPort y i kb) := by
  unfold withPort
  split
  · exact h _ _
  · rfl

theorem sameOutcome_andThen {ra rb : Result} {f : State → Result} (h : SameOutcome ra rb)
    (hk : ∀ u v, ra = .next u → SameLive u v → SameOutcome (f u) (f v)) :
    SameOutcome (andThen ra f) (andThen rb f) := by
  cases ra with
  | next u =>
    cases rb with
    | next v => exact hk u v rfl h
    | fault _ | refused _ => exact False.elim h
  | fault _ | refused _ =>
    cases rb with
    | next _ => exact False.elim h
    | fault _ | refused _ => exact h

/-! ## Agreement is kept by each update -/

namespace SameLive

variable {a b : State}

theorem drive (h : SameLive a b) (w w' : Wires) : SameLive (a.drive w) (b.drive w') := { h with }

theorem settle (h : SameLive a b) : SameLive a.settle b.settle := h.drive _ _

theorem retarget (h : SameLive a b) (t : Target) : SameLive (a.retarget t) (b.retarget t) :=
  { h with tgt := rfl }

theorem record (h : SameLive a b) (x : Txn) : SameLive (a.record x) (b.record x) :=
  { h with trace := by simp [h.trace] }

theorem takeCommand (h : SameLive a b) : SameLive a.takeCommand b.takeCommand :=
  { h with host := by simp [h.host] }

theorem loadByte (h : SameLive a b) (hd : Handle) (y i : Coord) :
    SameLive (a.loadByte hd y i) (b.loadByte hd y i) := by
  unfold State.loadByte
  rw [← h.tgt]
  exact (h.drive _ _).record _

theorem storeByte (h : SameLive a b) (hd : Handle) (y i : Coord) (v : Byte) :
    SameLive (a.storeByte hd y i v) (b.storeByte hd y i v) := by
  unfold State.storeByte
  rw [← h.tgt]
  exact (h.retarget _).record _

theorem answerAcquire (h : SameLive a b) (t : Target) (answer : Option Handle) :
    SameLive (a.answerAcquire t answer) (b.answerAcquire t answer) :=
  ((h.retarget _).drive _ _).record _

theorem resetEngine (h : SameLive a b) : SameLive a.resetEngine b.resetEngine := by
  unfold State.resetEngine
  rw [← h.host, ← h.lut]
  exact { h with
    ph := rfl, fmt := rfl, lut := rfl, host := rfl
    operands := nofun, handle := nofun, rows := nofun, columns := nofun, status := nofun }

/-- The operand latches, one by one, hold a value outside IDLE (R35). -/
theorem operands_eq (h : SameLive a b) (hph : a.eng.ph ≠ .idle) :
    a.eng.cx = b.eng.cx ∧ a.eng.cy = b.eng.cy ∧ a.eng.cw = b.eng.cw ∧ a.eng.ch = b.eng.ch ∧
      a.eng.cr = b.eng.cr ∧ a.eng.cg = b.eng.cg ∧ a.eng.cb = b.eng.cb := by
  simpa [Engine.command] using h.operands hph

/-! ## Agreement is kept by each phase of FILL -/

theorem sameOutcome_phaseIdle (h : SameLive a b) (x y w ht : Coord) (r g bl : Byte) :
    SameOutcome (phaseIdle x y w ht r g bl a) (phaseIdle x y w ht r g bl b) :=
  { h with
    ph := rfl, operands := fun _ => rfl
    handle := nofun, rows := nofun, columns := nofun, status := nofun }

/-- What follows an ACQUIRE depends on its answer only. -/
theorem afterAcquire (h : SameLive a b) (hph : a.eng.ph = .acq) (t : Target)
    (answer : Option Handle) :
    SameLive (a.answerAcquire t answer).afterAcquire.settle
      (b.answerAcquire t answer).afterAcquire.settle := by
  have hop := h.operands (by simp [hph])
  cases answer with
  | some hd => exact { h.answerAcquire t (some hd) with
      ph := rfl, operands := fun _ => hop, handle := fun _ => rfl
      rows := nofun, columns := nofun, status := nofun }
  | none => exact { h.answerAcquire t none with
      ph := rfl, operands := fun _ => hop, status := fun _ => rfl
      handle := nofun, rows := nofun, columns := nofun }

theorem sameOutcome_phaseAcq (h : SameLive a b) (hph : a.eng.ph = .acq) :
    SameOutcome (phaseAcq a) (phaseAcq b) := by
  unfold phaseAcq execAcquire
  rw [andThen_serve, andThen_serve]
  refine sameOutcome_serve h.tgt ?_
  rw [← h.tgt]
  rcases a.tgt.avail with _ | ⟨answer, rest⟩
  · exact h.afterAcquire hph _ _
  · cases answer with
    | grant hd =>
      simp only [State.grant]
      cases a.tgt.lock with
      | free => exact h.afterAcquire hph _ _
      | held => rfl
    | unavailable => exact h.afterAcquire hph _ _
    | other => rfl

theorem sameOutcome_phaseHgt (h : SameLive a b) (hph : a.eng.ph = .hgt) :
    SameOutcome (phaseHgt a) (phaseHgt b) := by
  have hhd := h.handle (by rw [hph]; rfl)
  have hop := h.operands (by simp [hph])
  obtain ⟨-, hcy, -, hch, -, -, -⟩ := h.operands_eq (by simp [hph])
  rw [phaseHgt_eq, phaseHgt_eq]
  refine sameOutcome_serve h.tgt ?_
  have hlatch : SameLive (a.latch (afterHeight a)) (b.latch (afterHeight b)) :=
    { h with
      ph := rfl, operands := fun _ => hop, handle := fun _ => hhd
      rows := fun _ => by simp [afterHeight, h.tgt, hcy, hch]
      columns := nofun, status := nofun }
  rw [← hhd, ← h.tgt]
  exact (hlatch.record _).settle

theorem sameOutcome_openRow (h : SameLive a b) (hph : a.eng.ph = .row) :
    SameOutcome (openRow a) (openRow b) := by
  have hhd := h.handle (by rw [hph]; rfl)
  have hop := h.operands (by simp [hph])
  have hrows := h.rows (.inl hph)
  obtain ⟨hcx, -, hcw, -, -, -, -⟩ := h.operands_eq (by simp [hph])
  obtain ⟨-, -, -, hpy⟩ := h.rows (.inl hph)
  have hlatch (mn mx : Coord) :
      SameLive (a.latch (afterBounds a mn mx)) (b.latch (afterBounds b mn mx)) :=
    { h with
      ph := rfl, operands := fun _ => hop, handle := fun _ => hhd, rows := fun _ => hrows
      columns := fun _ => by simp [afterBounds, hcx, hcw]
      status := nofun }
  rw [openRow_eq, openRow_eq, ← hhd, ← hpy, ← h.tgt]
  refine sameOutcome_withPort fun y _ => sameOutcome_serve h.tgt ?_
  split
  · rfl
  · exact ((hlatch _ _).record _).settle

theorem sameOutcome_phaseRow (h : SameLive a b) (hph : a.eng.ph = .row) :
    SameOutcome (phaseRow a) (phaseRow b) := by
  have hrows := h.rows (.inl hph)
  obtain ⟨-, -, hye, hpy⟩ := h.rows (.inl hph)
  unfold phaseRow rowRemains
  rw [← hye, ← hpy]
  split
  · exact h.sameOutcome_openRow hph
  · exact { h with
      ph := rfl
      operands := fun _ => h.operands (by simp [hph])
      handle := fun _ => h.handle (by simp [hph, Phase.inHold])
      rows := fun _ => hrows
      columns := nofun, status := nofun }

theorem sameOutcome_monoPixel (h : SameLive a b) (hph : a.eng.ph = .pix) :
    SameOutcome (monoPixel a) (monoPixel b) := by
  have hhd := h.handle (by rw [hph]; rfl)
  obtain ⟨-, -, -, -, hcr, hcg, hcb⟩ := h.operands_eq (by simp [hph])
  obtain ⟨-, -, -, hpy⟩ := h.rows (.inr (.inl hph))
  obtain ⟨-, -, -, -, hpx⟩ := h.columns hph
  have hbyte (row i : Coord) : monoPixelByte a row i = monoPixelByte b row i := by
    simp only [monoPixelByte, h.tgt, h.lut, hcr, hcg, hcb, hpx, hpy]
  rw [monoPixel_eq, monoPixel_eq, ← hhd, ← hpx, ← hpy]
  refine sameOutcome_withPort fun row i => sameOutcome_serve h.tgt (sameOutcome_withByte h.tgt
    (sameOutcome_serve h.tgt (sameOutcome_withByte h.tgt ?_)))
  rw [← hbyte]
  exact ((h.drive _ _).loadByte _ _ _).storeByte _ _ _ _

theorem sameOutcome_colorPixel (h : SameLive a b) (hph : a.eng.ph = .pix) :
    SameOutcome (colorPixel a) (colorPixel b) := by
  have hhd := h.handle (by rw [hph]; rfl)
  obtain ⟨-, -, -, -, hcr, hcg, hcb⟩ := h.operands_eq (by simp [hph])
  obtain ⟨-, -, -, hpy⟩ := h.rows (.inr (.inl hph))
  obtain ⟨-, -, -, -, hpx⟩ := h.columns hph
  have hbyte : colorPixelByte a = colorPixelByte b := by
    simp only [colorPixelByte, h.lut, hcr, hcg, hcb, hpx, hpy]
  rw [colorPixel_eq, colorPixel_eq, ← hhd, ← hpx, ← hpy, ← hbyte]
  refine sameOutcome_withPort fun row i =>
    sameOutcome_serve h.tgt (sameOutcome_withByte h.tgt ?_)
  exact (h.drive _ _).storeByte _ _ _ _

theorem sameOutcome_pixel (h : SameLive a b) (hph : a.eng.ph = .pix) :
    SameOutcome (pixel a) (pixel b) := by
  unfold pixel
  rw [← h.fmt]
  cases a.eng.fmt with
  | mono => exact h.sameOutcome_monoPixel hph
  | color => exact h.sameOutcome_colorPixel hph

theorem nextColumn (h : SameLive a b) (hph : a.eng.ph = .pix) :
    SameLive (a.latch { a.eng with px := a.eng.px + 1, ph := .pix })
      (b.latch { b.eng with px := b.eng.px + 1, ph := .pix }) := by
  obtain ⟨hminx, hmaxx, hxb, hxe, hpx⟩ := h.columns hph
  exact { h with
    ph := rfl
    operands := fun _ => h.operands (by simp [hph])
    handle := fun _ => h.handle (by simp [hph, Phase.inHold])
    rows := fun _ => h.rows (.inr (.inl hph))
    columns := fun _ => ⟨hminx, hmaxx, hxb, hxe, by simp [hpx]⟩
    status := nofun }

theorem closeRow (h : SameLive a b) (hph : a.eng.ph = .pix) :
    SameLive (a.latch { a.eng with py := a.eng.py + 1, ph := .row })
      (b.latch { b.eng with py := b.eng.py + 1, ph := .row }) := by
  obtain ⟨hhgt, hyb, hye, hpy⟩ := h.rows (.inr (.inl hph))
  exact { h with
    ph := rfl
    operands := fun _ => h.operands (by simp [hph])
    handle := fun _ => h.handle (by simp [hph, Phase.inHold])
    rows := fun _ => ⟨hhgt, hyb, hye, by simp [hpy]⟩
    columns := nofun, status := nofun }

theorem sameOutcome_phasePix (h : SameLive a b) (hph : a.eng.ph = .pix) :
    SameOutcome (phasePix a) (phasePix b) := by
  obtain ⟨-, -, -, hxe, hpx⟩ := h.columns hph
  unfold phasePix columnRemains
  rw [← hxe, ← hpx]
  split
  · refine sameOutcome_andThen (h.sameOutcome_pixel hph) fun u v hu huv =>
      (huv.nextColumn ?_).settle
    obtain ⟨-, -, -, -, -, heng, -⟩ := pixel_next hu
    rw [heng, hph]
  · exact (h.closeRow hph).settle

theorem sameOutcome_phaseRel (h : SameLive a b) (hph : a.eng.ph = .rel) :
    SameOutcome (phaseRel a) (phaseRel b) := by
  have hhd := h.handle (by rw [hph]; rfl)
  have hop := h.operands (by simp [hph])
  rw [phaseRel_eq, phaseRel_eq, ← hhd, ← h.tgt]
  exact sameOutcome_serve h.tgt { (h.retarget _).record _ with
    ph := rfl, operands := fun _ => hop, status := fun _ => rfl
    handle := nofun, rows := nofun, columns := nofun }

theorem sameOutcome_phaseRsp (h : SameLive a b) (hph : a.eng.ph = .rsp) :
    SameOutcome (phaseRsp a) (phaseRsp b) :=
  { h with
    ph := rfl, host := by simp [h.host, h.status hph]
    operands := nofun, handle := nofun, rows := nofun, columns := nofun, status := nofun }

theorem sameOutcome_exec (h : SameLive a b) (c : Command) :
    SameOutcome (exec c.instr a) (exec c.instr b) := by
  simp only [exec_instr, execFill]
  rw [← h.ph]
  cases hph : a.eng.ph with
  | idle => exact h.sameOutcome_phaseIdle _ _ _ _ _ _ _
  | acq => exact h.sameOutcome_phaseAcq hph
  | hgt => exact h.sameOutcome_phaseHgt hph
  | row => exact h.sameOutcome_phaseRow hph
  | pix => exact h.sameOutcome_phasePix hph
  | rel => exact h.sameOutcome_phaseRel hph
  | rsp => exact h.sameOutcome_phaseRsp hph

theorem sameOutcome_underReset (h : SameLive a b) : SameOutcome a.underReset b.underReset := by
  unfold State.underReset
  rw [← h.ph]
  cases a.eng.ph with
  | idle => exact h.resetEngine
  | acq | hgt | row | pix | rel | rsp => rfl

end SameLive

/-- Settles O52: equal phases lead to the same branch of the step, and each branch keeps agreement. -/
theorem deadRegistersAreIgnored : Obligations.DeadRegistersAreIgnored := by
  intro a b h
  unfold step
  rw [← h.host, ← h.ph]
  split
  · exact h.sameOutcome_underReset
  · split
    · split
      · exact h
      · exact h.takeCommand.sameOutcome_exec (descriptorCommand _)
    · next hph =>
      rw [currentCommand_eq_instr, currentCommand_eq_instr, ← h.operands hph]
      exact h.sameOutcome_exec _

end Sys2Proof.Machine
end

section
/-! The frame of one step of FILL, and what no step of the machine changes. -/

namespace Sys2Proof.Machine

/-- What the port carries for a row or an offset is that number in 16 bits. -/
theorem byteAddress_of_toPort {y i : Int} {row off : Coord} (hy : toPort y = some row)
    (hi : toPort i = some off) :
    byteAddress (BitVec.ofInt 16 y) (BitVec.ofInt 16 i) = byteAddress row off := by
  rw [(toPort_eq_some.1 hy).2.2, (toPort_eq_some.1 hi).2.2]

/-- Settles O40, phase by phase: the next state of each phase names what it writes. -/
theorem fillStepFrame : Obligations.FillStepFrame := by
  intro c s t h
  rcases execFill_cases h with
    ⟨hph, h⟩ | ⟨hph, h⟩ | ⟨hph, h⟩ | ⟨hph, h⟩ | ⟨hph, h⟩ | ⟨hph, h⟩ | ⟨hph, h⟩
  · cases h
    simp [hph]
  · obtain ⟨-, _ | hd, -, rfl⟩ := phaseAcq_next h <;> simp [hph, Engine.command]
  · obtain ⟨-, rfl⟩ := phaseHgt_next.1 h
    simp [hph, afterHeight, Engine.command]
  · obtain ⟨-, ho⟩ | ⟨-, rfl⟩ := phaseRow_next.1 h
    · obtain ⟨y, -, -, -, rfl⟩ := openRow_next.1 ho
      simp [hph, afterBounds, Engine.command]
    · simp [hph, Engine.command]
  · obtain ⟨hcol, heng, hhost, -, row, i, v, hy, hi, htgt⟩ | ⟨-, rfl⟩ := phasePix_cases h
    · have hmem (hwf : Memory.wf s.tgt.mem = true) (a : Nat) (ha : ¬ a = byteAddress row i) :
          Memory.read (Memory.write s.tgt.mem (byteAddress row i) v) a =
            Memory.read s.tgt.mem a := Memory.read_write_other hwf v (Ne.symm ha)
      simpa [hph, hcol, heng, hhost, htgt, byteAddress_of_toPort hy hi, Engine.command] using hmem
    · simp [hph, Engine.command]
  · obtain ⟨-, rfl⟩ := phaseRel_next.1 h
    simp [hph, Engine.command]
  · cases h
    simp [hph, Engine.command]

/-- A step of FILL leaves the configuration and the target's own record as they are. -/
theorem fill_keeps_configuration {c : Command} {s t : State} (h : exec c.instr s = .next t) :
    t.eng.lut = s.eng.lut ∧ t.eng.fmt = s.eng.fmt ∧ t.host.strap = s.host.strap ∧
      t.tgt.height = s.tgt.height ∧ t.tgt.bounds = s.tgt.bounds ∧ t.tgt.holes = s.tgt.holes ∧
      t.tgt.silent = s.tgt.silent := by
  obtain ⟨hfmt, hlut, -, -, -, -, -, -, -, -, hstrap, -, -, hheight, hbounds, hholes, hsilent, -⟩ :=
    fillStepFrame c s t h
  exact ⟨hlut, hfmt, hstrap, hheight, hbounds, hholes, hsilent⟩

/-- Settles O48: reset keeps the ROM and the target, and a step of FILL has its frame. -/
theorem configurationAndTargetHold : Obligations.ConfigurationAndTargetHold := by
  intro s t h
  obtain ⟨hr, rfl⟩ | rfl | ⟨c, u, hu, he⟩ := step_next_cases h
  · simp [hr]
  · simp
  · obtain ⟨hlut, hfmt, htarget⟩ := fill_keeps_configuration he
    rcases hu with rfl | rfl
    · exact ⟨hlut, fun _ => hfmt, htarget⟩
    · exact ⟨hlut, fun _ => hfmt, htarget⟩

end Sys2Proof.Machine
end

section
/-! What reset leaves where the spec gives a value (R36, R101, R102, R201). -/

namespace Sys2Proof.Machine

/-- The default table holds each of 0..63 once (R101, R102). -/
theorem lut_isPermutation : IsPermutation Config.lut := by
  unfold IsPermutation Config.lut
  decide

/-- Settles O9: the fields of the reset state, and the default table entry by entry. -/
theorem resetLeavesSpecValues : Obligations.ResetLeavesSpecValues :=
  ⟨rfl, rfl, rfl, rfl, rfl, lut_isPermutation, by decide⟩

end Sys2Proof.Machine
end

section
/-! The six transactions of the target port (R52 to R57), each on a target that answers it: the whole
next state. -/

namespace Sys2Proof.Machine

/-! ## When an ACQUIRE is granted and when it is refused -/

/-- A granting target's ACQUIRE is answered with the handle, from the script or freely (R52, U3). -/
theorem execAcquire_of_willGrant {s : State} {hd : Handle} (hs : .acquire ∉ s.tgt.silent)
    (hg : s.tgt.WillGrant hd) :
    execAcquire s = .next (s.answerAcquire s.tgt.answered (some hd)) := by
  obtain ⟨hlock, hhead | ⟨hav, hfree⟩⟩ := hg
  · obtain ⟨rest, hav⟩ := List.head?_eq_some_iff.1 hhead
    simp [execAcquire, serve_of_answered _ hs, hav, State.grant, hlock, Target.answered]
  · simp [execAcquire, serve_of_answered _ hs, hav, Target.freeAnswer, hlock, hfree,
      Target.answered]

/-- A refusing target's ACQUIRE is answered UNAVAILABLE, from the script or freely (R52, U3). -/
theorem execAcquire_of_willRefuse {s : State} (hs : .acquire ∉ s.tgt.silent)
    (hr : s.tgt.WillRefuse) :
    execAcquire s = .next (s.answerAcquire s.tgt.answered none) := by
  obtain hhead | ⟨hav, hfree⟩ := hr
  · obtain ⟨rest, hav⟩ := List.head?_eq_some_iff.1 hhead
    simp [execAcquire, serve_of_answered _ hs, hav, Target.answered]
  · simp [execAcquire, serve_of_answered _ hs, hav, hfree, Target.answered]

/-- Settles O20: the answer is the handle, and the lock after it is HELD. -/
theorem acquireGranted : Obligations.AcquireGranted :=
  fun _ _ hs hg => execAcquire_of_willGrant hs hg

/-- Settles O21: the answer is UNAVAILABLE, and the lock after it is what it was. -/
theorem acquireUnavailable : Obligations.AcquireUnavailable :=
  fun _ hs hr => execAcquire_of_willRefuse hs hr

/-! ## The other five -/

/-- Settles O22: the request is served. -/
theorem releaseFreesLock : Obligations.ReleaseFreesLock :=
  fun _ _ hs => execRelease_next.2 ⟨hs, rfl⟩

/-- Settles O23: the request is served. -/
theorem heightAnswers : Obligations.HeightAnswers :=
  fun _ _ hs => execHeight_next.2 ⟨hs, rfl⟩

/-- Settles O24: the request is served, and minX ≥ 0 keeps duty T6. -/
theorem rowBoundsAnswers : Obligations.RowBoundsAnswers := by
  intro s hd y mn mx hs hb hmn
  refine execRowBounds_next.2 ⟨hs, by rwa [hb], ?_⟩
  rw [hb]
  rfl

/-- Settles O25: the request is served, and there is a byte to read. -/
theorem rowReadAnswers : Obligations.RowReadAnswers :=
  fun _ _ _ _ hs hbyte => execRowRead_next.2 ⟨hs, hbyte, rfl⟩

/-- Settles O26: the memory after is the write of that byte, and different pairs (row, offset) have
different addresses. -/
theorem rowWriteStores : Obligations.RowWriteStores := by
  intro s hd y i v hs hbyte hwf
  have hother (a : Nat) (ha : a ≠ byteAddress y i) :
      Memory.read (Memory.write s.tgt.mem (byteAddress y i) v) a = Memory.read s.tgt.mem a :=
    Memory.read_write_other hwf v ha.symm
  refine ⟨Memory.write s.tgt.mem (byteAddress y i) v, Memory.wf_write hwf _ _,
    Memory.read_write_same hwf _ _, fun y' i' hne => hother _ fun ha => hne ?_, hother,
    execRowWrite_next.2 ⟨hs, hbyte, rfl⟩⟩
  obtain ⟨rfl, rfl⟩ := byteAddress_inj.1 ha
  rfl

end Sys2Proof.Machine
end

section
/-! What the engine asks of the target. A step of FILL issues what its phase issues (R75), and under
the invariant each request lies in the valid region (R65, R66). -/

namespace Sys2Proof.Machine

/-- The transactions one step of FILL may issue in this state, with the port operands they carry
(R75, R76, R84). -/
inductive Issues (s : State) : List Txn → Prop
  | nothing : s.eng.requests = [] → Issues s []
  | acquire (answer : Option Handle) : s.eng.ph = .acq → Issues s [.acquire answer]
  | height (answer : Coord) : s.eng.ph = .hgt → Issues s [.height s.eng.hd answer]
  | rowBounds (y mn mx : Coord) : s.eng.ph = .row → s.eng.py.toInt < s.eng.ye.toInt →
      toPort s.eng.py.toInt = some y → Issues s [.rowBounds s.eng.hd y mn mx]
  | monoPixel (y i : Coord) (old new : Byte) : s.eng.ph = .pix →
      s.eng.px.toInt < s.eng.xe.toInt → s.eng.fmt = .mono → toPort s.eng.py.toInt = some y →
      toPort (pixelOffset s.eng.fmt s.eng.px.toInt) = some i →
      Issues s [.rowRead s.eng.hd y i old, .rowWrite s.eng.hd y i new]
  | colorPixel (y i : Coord) (new : Byte) : s.eng.ph = .pix →
      s.eng.px.toInt < s.eng.xe.toInt → s.eng.fmt = .color → toPort s.eng.py.toInt = some y →
      toPort (pixelOffset s.eng.fmt s.eng.px.toInt) = some i →
      Issues s [.rowWrite s.eng.hd y i new]
  | release : s.eng.ph = .rel → Issues s [.release s.eng.hd]

/-- A pixel is one read and one write of its byte in `MONO`, one write in `COLOR` (R129, R143). -/
theorem pixel_issues {s u : State} (hph : s.eng.ph = .pix)
    (hcol : s.eng.px.toInt < s.eng.xe.toInt) (h : pixel s = .next u) :
    ∃ new, u.trace = s.trace ++ new ∧ Issues s new := by
  unfold pixel at h
  split at h
  · next hf =>
    obtain ⟨y, i, hy, hi, -, -, -, rfl⟩ := monoPixel_next.1 h
    exact ⟨_, List.append_assoc _ _ _, .monoPixel y i _ _ hph hcol hf hy (by rwa [hf])⟩
  · next hf =>
    obtain ⟨y, i, hy, hi, -, -, rfl⟩ := colorPixel_next.1 h
    exact ⟨_, rfl, .colorPixel y i _ hph hcol hf hy (by rwa [hf])⟩

/-- A step of FILL adds to the trace what its phase issues, and nothing else (R75). -/
theorem fill_issues {c : Command} {s t : State} (h : exec c.instr s = .next t) :
    ∃ new, t.trace = s.trace ++ new ∧ Issues s new := by
  rcases execFill_cases h with
    ⟨hph, h⟩ | ⟨hph, h⟩ | ⟨hph, h⟩ | ⟨hph, h⟩ | ⟨hph, h⟩ | ⟨hph, h⟩ | ⟨hph, h⟩
  · cases h
    exact ⟨[], by simp, .nothing (by simp [Engine.requests, hph])⟩
  · obtain ⟨-, answer, -, rfl⟩ := phaseAcq_next h
    exact ⟨[.acquire answer], by cases answer <;> simp, .acquire answer hph⟩
  · obtain ⟨-, rfl⟩ := phaseHgt_next.1 h
    exact ⟨_, rfl, .height _ hph⟩
  · obtain ⟨hrow, ho⟩ | ⟨hdone, rfl⟩ := phaseRow_next.1 h
    · obtain ⟨y, hy, -, -, rfl⟩ := openRow_next.1 ho
      exact ⟨_, rfl, .rowBounds y _ _ hph hrow hy⟩
    · exact ⟨[], by simp, .nothing (by simp [Engine.requests, hph, hdone])⟩
  · obtain ⟨hcol, u, hu, rfl⟩ | ⟨hdone, rfl⟩ := phasePix_next.1 h
    · obtain ⟨new, htrace, hnew⟩ := pixel_issues hph hcol hu
      exact ⟨new, htrace, hnew⟩
    · exact ⟨[], by simp, .nothing (by simp [Engine.requests, hph, hdone])⟩
  · obtain ⟨-, rfl⟩ := phaseRel_next.1 h
    exact ⟨_, rfl, .release hph⟩
  · cases h
    exact ⟨[], by simp, .nothing (by simp [Engine.requests, hph])⟩

/-- What is issued has the kinds R75 lists for the phase. -/
theorem Issues.kinds {s : State} {new : List Txn} (h : Issues s new) :
    new.map Txn.kind = s.eng.requests := by
  cases h with
  | nothing hreq => exact hreq.symm
  | acquire _ hph | height _ hph | release hph => simp [Engine.requests, Txn.kind, hph]
  | rowBounds _ _ _ hph hrow => simp [Engine.requests, Txn.kind, hph, hrow]
  | monoPixel _ _ _ _ hph hcol hf | colorPixel _ _ _ hph hcol hf =>
    simp [Engine.requests, Txn.kind, hph, hcol, hf]

/-- Every request but ACQUIRE carries `HD` (R76). -/
theorem Issues.handle {s : State} {new : List Txn} (h : Issues s new) {x : Txn} (hx : x ∈ new)
    (hk : x.kind ≠ .acquire) : x.handle = some s.eng.hd := by
  cases h with
  | nothing => simp at hx
  | acquire =>
    obtain rfl := List.mem_singleton.1 hx
    exact absurd rfl hk
  | height | rowBounds | colorPixel | release =>
    obtain rfl := List.mem_singleton.1 hx
    rfl
  | monoPixel =>
    obtain rfl | rfl := List.mem_pair.1 hx
    · rfl
    · rfl

/-- Settles O46: what a step of FILL issues has the phase's kinds and carries the handle. -/
theorem requestsOfPhase : Obligations.RequestsOfPhase := by
  intro c s t h
  obtain ⟨new, htrace, hnew⟩ := fill_issues h
  exact ⟨new, htrace, hnew.kinds, fun _ => hnew.handle⟩

/-! ## The valid region -/

/-- A row before YE is a row of the buffer (R110). -/
theorem RowRange.row_in_buffer {s : State} (hr : RowRange s)
    (hrow : s.eng.py.toInt < s.eng.ye.toInt) :
    0 ≤ s.eng.py.toInt ∧ s.eng.py.toInt < s.tgt.height.toInt := by
  obtain ⟨hhgt, hfirst, hlast, hfrom, -⟩ := hr
  rw [hhgt] at hlast
  omega

/-- The pixel (PX, PY) that phase PIX works on is visible (R118, R165). -/
theorem Inv.pixel_visible {s : State} (hi : Inv s) (hph : s.eng.ph = .pix)
    (hcol : s.eng.px.toInt < s.eng.xe.toInt) :
    s.eng.command.visible s.tgt s.eng.px.toInt s.eng.py.toInt = true := by
  obtain ⟨hhgt, hyb, hye, hfromy, -⟩ := hi.rows (.inr hph)
  obtain ⟨hrow, hbounds, -, hxb, hxe, hfromx, -⟩ := hi.columns hph
  simp only [Command.visible, Command.rows, Command.columns, clipV, clipH, Engine.command,
    ← hbounds, ← hhgt, decide_eq_true_eq]
  omega

/-- Under the invariant a byte is asked for only at a visible pixel's offset, and bounds only of a
row of the buffer (R65). -/
theorem Issues.inBounds {s : State} {new : List Txn} (hi : Inv s) (h : Issues s new) {x : Txn}
    (hx : x ∈ new) : x.InBounds s.eng.command s.eng.fmt s.tgt := by
  have hpixel {y i : Coord} (hph : s.eng.ph = .pix) (hcol : s.eng.px.toInt < s.eng.xe.toInt)
      (hy : toPort s.eng.py.toInt = some y)
      (hoff : toPort (pixelOffset s.eng.fmt s.eng.px.toInt) = some i) :
      0 ≤ y.toInt ∧ y.toInt < s.tgt.height.toInt ∧ ∃ col : Int,
        s.eng.command.visible s.tgt col y.toInt = true ∧ i.toInt = pixelOffset s.eng.fmt col := by
    rw [toPort_toInt hy, toPort_toInt hoff]
    obtain ⟨h0, hlt⟩ := (hi.rows (.inr hph)).row_in_buffer (hi.columns hph).row_remains
    exact ⟨h0, hlt, s.eng.px.toInt, hi.pixel_visible hph hcol, rfl⟩
  cases h with
  | nothing => simp at hx
  | acquire | height | release =>
    obtain rfl := List.mem_singleton.1 hx
    trivial
  | rowBounds y mn mx hph hrow hy =>
    obtain rfl := List.mem_singleton.1 hx
    have hbuf := (hi.rows (.inl hph)).row_in_buffer hrow
    rwa [← toPort_toInt hy] at hbuf
  | monoPixel y i old new hph hcol _ hy hoff =>
    obtain rfl | rfl := List.mem_pair.1 hx
    · exact hpixel hph hcol hy hoff
    · exact hpixel hph hcol hy hoff
  | colorPixel y i new hph hcol _ hy hoff =>
    obtain rfl := List.mem_singleton.1 hx
    exact hpixel hph hcol hy hoff

/-- Settles O44: only a step of FILL issues a transaction, and taking the command off the port
changes neither the invariant nor the engine nor the target. -/
theorem accessesStayInBounds : Obligations.AccessesStayInBounds := by
  intro s t hi h
  obtain ⟨-, rfl⟩ | rfl | ⟨c, u, rfl | rfl, he⟩ := step_next_cases h
  · exact ⟨[], by simp, by simp⟩
  · exact ⟨[], by simp, by simp⟩
  · obtain ⟨new, htrace, hnew⟩ := fill_issues he
    exact ⟨new, htrace, fun _ => hnew.inBounds hi⟩
  · obtain ⟨new, htrace, hnew⟩ := fill_issues he
    exact ⟨new, htrace, fun _ => hnew.inBounds (takeCommand_keeps_inv hi)⟩

end Sys2Proof.Machine
end

section
/-! A target that breaks a duty (R73, R74). A target request stops the requester by name, and so does
MPACK or the phase of FILL that issues the request: each is the request's checks around one next
state. -/

namespace Sys2Proof.Machine

/-! ## The checks, where they fail and where they pass -/

/-- An access where there is no byte is refused (T7). -/
theorem withByte_of_hole {s : State} {y i : Coord} (r : Result)
    (h : s.tgt.hasByte (byteAddress y i) = false) : withByte s y i r = .refused .noByte := by
  simp [withByte, h]

theorem withByte_of_hasByte {s : State} {y i : Coord} (r : Result)
    (h : s.tgt.hasByte (byteAddress y i) = true) : withByte s y i r = r := by
  simp [withByte, h]

theorem Target.hasByte_of_holes_nil {t : Target} (h : t.holes = []) (a : Nat) :
    t.hasByte a = true := by
  simp [Target.hasByte, h]

/-- The port carries every number in 0 .. 2^15 − 1 (R84). -/
theorem exists_toPort {v : Int} (h0 : 0 ≤ v) (h1 : v < 32768) : ∃ c, toPort v = some c :=
  ⟨_, toPort_eq_some.2 ⟨h0, h1, rfl⟩⟩

/-- A number that a port field holds is what the port carries for it. -/
theorem toPort_of_toInt {v : Int} {c : Coord} (h : c.toInt = v) (h0 : 0 ≤ v) :
    toPort v = some c := by
  subst h
  exact toPort_eq_some.2 ⟨h0, (coord_toInt_bounds c).2, BitVec.ofInt_toInt⟩

/-- The port carries nothing else. -/
theorem toPort_eq_none {v : Int} : toPort v = none ↔ v < 0 ∨ 32768 ≤ v := by
  unfold toPort
  split
  · simp; omega
  · simp; omega

theorem withPort_of_toPort {y i : Int} {row off : Coord} (k : Coord → Coord → Result)
    (hy : toPort y = some row) (hi : toPort i = some off) : withPort y i k = k row off := by
  simp [withPort, hy, hi]

/-- A row or an offset that the port cannot carry is refused (R62, R84). -/
theorem withPort_outsidePort {y i : Int} (k : Coord → Coord → Result)
    (h : y < 0 ∨ 32768 ≤ y ∨ i < 0 ∨ 32768 ≤ i) : withPort y i k = .refused .outsidePort := by
  have hnone : toPort y = none ∨ toPort i = none := by
    rw [toPort_eq_none, toPort_eq_none]
    omega
  unfold withPort
  split
  · simp_all
  · rfl

/-! ## The offset of a column on the port -/

@[simp] theorem pixelOffset_mono (x : Int) : pixelOffset .mono x = monoOffset x := rfl

@[simp] theorem pixelOffset_color (x : Int) : pixelOffset .color x = colorOffset x := rfl

theorem pixelOffset_nonneg (fmt : PixelFormat) {x : Int} (h : 0 ≤ x) : 0 ≤ pixelOffset fmt x := by
  cases fmt with
  | mono => exact Int.ediv_nonneg h (by decide)
  | color => exact h

/-- A column that the port carries has an offset that the port carries (R27, R84). -/
theorem exists_toPort_pixelOffset (fmt : PixelFormat) {x : Int} (h0 : 0 ≤ x) (h1 : x < 32768) :
    ∃ i, toPort (pixelOffset fmt x) = some i := by
  have hle : pixelOffset fmt x ≤ x := by
    cases fmt with
    | mono => exact Int.ediv_le_self _ h0
    | color => exact le_refl x
  exact exists_toPort (pixelOffset_nonneg fmt h0) (by omega)

/-- In `MONO` every column the registers can hold has an offset that the port carries (R27, R59). -/
theorem exists_toPort_monoOffset {x : Wide} (h : 0 ≤ x.toInt) :
    ∃ i, toPort (monoOffset x.toInt) = some i := by
  have hx := (wide_toInt_bounds x).2
  unfold monoOffset
  exact exists_toPort (by omega) (by omega)

/-! ## MPACK and the pixel as their checks -/

/-- MPACK is ROW_READ, ROW_WRITE and then one next state (R129). -/
theorem execMpack_eq (x y : Wide) (on : Bool) (s : State) :
    execMpack x y on s = withPort y.toInt (monoOffset x.toInt) fun row i =>
      serve .rowRead s (withByte s row i (serve .rowWrite s (withByte s row i
        (.next ((s.loadByte s.eng.hd row i).storeByte s.eng.hd row i
          (mergeBit (Memory.read s.tgt.mem (byteAddress row i)) (monoBit x.toInt) on)))))) := by
  unfold execMpack execRowRead
  simp only [andThen_serve, andThen_withByte]
  rfl

/-- The monochrome pixel ends in MPACK of its bit (R125). -/
theorem monoPixel_eq_execMpack (s : State) :
    monoPixel s = execMpack s.eng.px s.eng.py
      (monoOn s.eng.cr s.eng.cg s.eng.cb (threshold s.eng.lut s.eng.px.toInt s.eng.py.toInt))
      (s.drive (monoWires s)) := rfl

section Mpack

variable {x y : Wide} {s : State} {row i : Coord} (on : Bool)

theorem execMpack_of_rowRead_silent (hy : toPort y.toInt = some row)
    (hi : toPort (monoOffset x.toInt) = some i) (hs : .rowRead ∈ s.tgt.silent) :
    execMpack x y on s = .fault (.noAnswer .rowRead) := by
  rw [execMpack_eq, withPort_of_toPort _ hy hi, serve_of_silent _ hs]

theorem execMpack_of_rowWrite_silent (hy : toPort y.toInt = some row)
    (hi : toPort (monoOffset x.toInt) = some i) (hr : .rowRead ∉ s.tgt.silent)
    (hbyte : s.tgt.hasByte (byteAddress row i) = true) (hs : .rowWrite ∈ s.tgt.silent) :
    execMpack x y on s = .fault (.noAnswer .rowWrite) := by
  rw [execMpack_eq, withPort_of_toPort _ hy hi, serve_of_answered _ hr,
    withByte_of_hasByte _ hbyte, serve_of_silent _ hs]

theorem execMpack_of_hole (hy : toPort y.toInt = some row)
    (hi : toPort (monoOffset x.toInt) = some i) (hr : .rowRead ∉ s.tgt.silent)
    (hbyte : s.tgt.hasByte (byteAddress row i) = false) :
    execMpack x y on s = .refused .noByte := by
  rw [execMpack_eq, withPort_of_toPort _ hy hi, serve_of_answered _ hr, withByte_of_hole _ hbyte]

theorem execMpack_outsidePort (h : x.toInt < 0 ∨ y.toInt < 0 ∨ 32768 ≤ y.toInt) :
    execMpack x y on s = .refused .outsidePort := by
  rw [execMpack_eq, withPort_outsidePort]
  unfold monoOffset
  omega

end Mpack

section Pixel

variable {s : State} {row i : Coord}

theorem pixel_of_rowRead_silent (hf : s.eng.fmt = .mono) (hy : toPort s.eng.py.toInt = some row)
    (hi : toPort (monoOffset s.eng.px.toInt) = some i) (hs : .rowRead ∈ s.tgt.silent) :
    pixel s = .fault (.noAnswer .rowRead) := by
  simp only [pixel, hf, monoPixel_eq_execMpack]
  exact execMpack_of_rowRead_silent _ hy hi hs

theorem pixel_of_rowWrite_silent (hy : toPort s.eng.py.toInt = some row)
    (hi : toPort (pixelOffset s.eng.fmt s.eng.px.toInt) = some i) (hr : .rowRead ∉ s.tgt.silent)
    (hbyte : s.tgt.hasByte (byteAddress row i) = true) (hs : .rowWrite ∈ s.tgt.silent) :
    pixel s = .fault (.noAnswer .rowWrite) := by
  unfold pixel
  split
  · next hf =>
    rw [hf] at hi
    exact execMpack_of_rowWrite_silent _ hy hi hr hbyte hs
  · next hf =>
    rw [hf, pixelOffset_color] at hi
    rw [colorPixel_eq, withPort_of_toPort _ hy hi, serve_of_silent _ hs]

theorem pixel_of_hole (hy : toPort s.eng.py.toInt = some row)
    (hi : toPort (pixelOffset s.eng.fmt s.eng.px.toInt) = some i) (hs : s.tgt.silent = [])
    (hbyte : s.tgt.hasByte (byteAddress row i) = false) : pixel s = .refused .noByte := by
  unfold pixel
  split
  · next hf =>
    rw [hf] at hi
    exact execMpack_of_hole _ hy hi (by simp [hs]) hbyte
  · next hf =>
    rw [hf, pixelOffset_color] at hi
    rw [colorPixel_eq, withPort_of_toPort _ hy hi, serve_of_answered _ (by simp [hs]),
      withByte_of_hole _ hbyte]

/-- A `MONO` column the registers can hold has an offset that the port carries; a `COLOR` column past
the port has none. -/
theorem pixel_outsidePort
    (h : s.eng.py.toInt < 0 ∨ 32768 ≤ s.eng.py.toInt ∨ s.eng.px.toInt < 0 ∨
      (s.eng.fmt = .color ∧ 32768 ≤ s.eng.px.toInt)) : pixel s = .refused .outsidePort := by
  unfold pixel
  split
  · next hf =>
    have hmono : s.eng.fmt ≠ .color := by simp [hf]
    exact execMpack_outsidePort _ (by tauto)
  · rw [colorPixel_eq, withPort_outsidePort]
    unfold colorOffset
    omega

end Pixel

/-! ## The phase that issues the request -/

section Phases

variable (c : Command) {s : State}

theorem exec_of_acq (hph : s.eng.ph = .acq) : exec c.instr s = phaseAcq s := by
  simp [exec_instr, execFill, hph]

/-- Phase ACQ stops where its ACQUIRE is refused (R162). -/
theorem exec_of_acquire_refused {r : Refusal} (h : execAcquire s = .refused r)
    (hph : s.eng.ph = .acq) : exec c.instr s = .refused r := by
  rw [exec_of_acq c hph, phaseAcq, h, andThen_refused]

theorem exec_of_hgt (hph : s.eng.ph = .hgt) : exec c.instr s = phaseHgt s := by
  simp [exec_instr, execFill, hph]

theorem exec_of_rel (hph : s.eng.ph = .rel) : exec c.instr s = phaseRel s := by
  simp [exec_instr, execFill, hph]

/-- Phase ROW with a row remaining opens it (R164). -/
theorem exec_of_row (hph : s.eng.ph = .row) (hrow : s.eng.py.toInt < s.eng.ye.toInt) :
    exec c.instr s = openRow s := by
  simp [exec_instr, execFill, hph, phaseRow, rowRemains, hrow]

/-- Phase PIX with a column remaining runs one pixel (R165). -/
theorem exec_of_pix (hph : s.eng.ph = .pix) (hcol : s.eng.px.toInt < s.eng.xe.toInt) :
    exec c.instr s = andThen (pixel s) fun u =>
      .next (u.latch { u.eng with px := u.eng.px + 1, ph := .pix }).settle := by
  simp [exec_instr, execFill, hph, phasePix, columnRemains, hcol]

end Phases

/-! ## The two statements -/

/-- Settles O27: the request is not served, and the phase that issues it, or MPACK, ends with it. -/
theorem silentTargetSticks : Obligations.SilentTargetSticks := by
  intro s hd y i v c
  refine ⟨fun hs => ?_, fun hs => ?_, fun hs => ?_, fun hs => ?_, fun hs => ?_, fun hs => ?_⟩
  · have hacq : execAcquire s = .fault (.noAnswer .acquire) := serve_of_silent _ hs
    exact ⟨hacq, fun hph => by rw [exec_of_acq c hph, phaseAcq, hacq, andThen_fault]⟩
  · exact ⟨serve_of_silent _ hs, fun hph => by
      rw [exec_of_rel c hph, phaseRel_eq, serve_of_silent _ hs]⟩
  · exact ⟨serve_of_silent _ hs, fun hph => by
      rw [exec_of_hgt c hph, phaseHgt_eq, serve_of_silent _ hs]⟩
  · refine ⟨serve_of_silent _ hs, fun hph hrow h0 h1 => ?_⟩
    obtain ⟨row, hy⟩ := exists_toPort h0 h1
    rw [exec_of_row c hph hrow, openRow_eq, withPort_of_toPort (off := 0) _ hy rfl,
      serve_of_silent _ hs]
  · refine ⟨serve_of_silent _ hs, fun px py on hx h0 h1 => ?_, fun hph hf hcol h0 h1 hx => ?_⟩
    · obtain ⟨row, hy⟩ := exists_toPort h0 h1
      obtain ⟨off, hi⟩ := exists_toPort_monoOffset hx
      exact execMpack_of_rowRead_silent on hy hi hs
    · obtain ⟨row, hy⟩ := exists_toPort h0 h1
      obtain ⟨off, hi⟩ := exists_toPort_monoOffset hx
      rw [exec_of_pix c hph hcol, pixel_of_rowRead_silent hf hy hi hs, andThen_fault]
  · refine ⟨serve_of_silent _ hs, fun px py on hx h0 h1 hr hholes => ?_,
      fun hph hcol h0 h1 hx hx1 hr hholes => ?_⟩
    · obtain ⟨row, hy⟩ := exists_toPort h0 h1
      obtain ⟨off, hi⟩ := exists_toPort_monoOffset hx
      exact execMpack_of_rowWrite_silent on hy hi hr (Target.hasByte_of_holes_nil hholes _) hs
    · obtain ⟨row, hy⟩ := exists_toPort h0 h1
      obtain ⟨off, hi⟩ := exists_toPort_pixelOffset s.eng.fmt hx hx1
      rw [exec_of_pix c hph hcol,
        pixel_of_rowWrite_silent hy hi hr (Target.hasByte_of_holes_nil hholes _) hs, andThen_fault]

/-- Settles O28: the check of the broken duty refuses the request, and the phase that issues it, or
MPACK, ends with it. -/
theorem brokenDutyRefused : Obligations.BrokenDutyRefused := by
  intro s c hs
  have hsilent (k : ReqKind) : k ∉ s.tgt.silent := by simp [hs]
  refine ⟨fun hd hhead hlock => ?_, fun hhead => ?_, fun hd y hmn => ?_,
    fun hd y i v hbyte => ⟨?_, ?_, fun px py on hx hy0 hy hi => ?_,
      fun hph hcol hx hy0 hy hi => ?_⟩,
    fun px py on hoff => ?_, fun hph hrow hoff => ?_, fun hph hcol hoff => ?_⟩
  · obtain ⟨rest, hav⟩ := List.head?_eq_some_iff.1 hhead
    have hacq : execAcquire s = .refused .grantWhileHeld := by
      simp [execAcquire, serve_of_answered _ (hsilent _), hav, State.grant, hlock]
    exact ⟨hacq, exec_of_acquire_refused c hacq⟩
  · obtain ⟨rest, hav⟩ := List.head?_eq_some_iff.1 hhead
    have hacq : execAcquire s = .refused .otherAnswer := by
      simp [execAcquire, serve_of_answered _ (hsilent _), hav]
    exact ⟨hacq, exec_of_acquire_refused c hacq⟩
  · refine ⟨(serve_of_answered _ (hsilent _)).trans (if_pos hmn), fun hph hrow h0 hy => ?_⟩
    rw [exec_of_row c hph hrow, openRow_eq,
      withPort_of_toPort (off := 0) _ (toPort_of_toInt hy h0) rfl,
      serve_of_answered _ (hsilent _), if_pos hmn]
  · exact (serve_of_answered _ (hsilent _)).trans (withByte_of_hole _ hbyte)
  · exact (serve_of_answered _ (hsilent _)).trans (withByte_of_hole _ hbyte)
  · exact execMpack_of_hole on (toPort_of_toInt hy hy0)
      (toPort_of_toInt hi (pixelOffset_nonneg .mono hx)) (hsilent _) hbyte
  · rw [exec_of_pix c hph hcol, pixel_of_hole (toPort_of_toInt hy hy0)
      (toPort_of_toInt hi (pixelOffset_nonneg _ hx)) hs hbyte, andThen_refused]
  · exact execMpack_outsidePort on hoff
  · rw [exec_of_row c hph hrow, openRow_eq, withPort_outsidePort _ (by omega)]
  · rw [exec_of_pix c hph hcol, pixel_outsidePort hoff, andThen_refused]

end Sys2Proof.Machine
end

section
/-! The encoding (30_encoding.md). A descriptor and a request word are their fields side by side, each
taken apart and put together here once; from that the two directions between an operation and its word. -/

namespace Sys2Proof

open Laws.IssuedCode (requestWord_code)

/-! ## The fields of a descriptor (R80) -/

/-- The descriptor with these fields holds the FILL with these operands (R80, R82). -/
theorem decodeCommand_encodeCommand (x y w h : Coord) (r g b : Byte) :
    decodeCommand (encodeCommand x y w h r g b) = .fill x y w h r g b := by
  rw [decodeCommand, encodeCommand]
  congr 1 <;> repeat rw [BitVec.extractLsb'_append_eq_of_le (by decide)]
  case e_b => exact BitVec.extractLsb'_eq_self
  all_goals exact BitVec.extractLsb'_append_eq_right

/-- A descriptor is the word of the FILL it holds: its seven fields and nothing else (R80, R82). -/
theorem encode_decodeCommand (d : Descriptor) : encode (decodeCommand d) = some (.command d) := by
  rw [decodeCommand, encode, encodeCommand]
  iterate 6 rw [BitVec.extractLsb'_append_extractLsb'_eq_extractLsb' (by decide)]
  rw [BitVec.extractLsb'_eq_self]

/-! ## The fields of a request word (log 14) -/

section Fields

variable (data : Byte) (i y : Coord) (hd : Handle) (k : BitVec 3)

@[simp] theorem requestWord_handle : (requestWord data i y hd k).extractLsb' 3 8 = hd := by
  rw [requestWord, BitVec.extractLsb'_append_eq_of_le (by decide)]
  exact BitVec.extractLsb'_append_eq_right

@[simp] theorem requestWord_row : (requestWord data i y hd k).extractLsb' 11 16 = y := by
  rw [requestWord]
  iterate 2 rw [BitVec.extractLsb'_append_eq_of_le (by decide)]
  exact BitVec.extractLsb'_append_eq_right

@[simp] theorem requestWord_offset : (requestWord data i y hd k).extractLsb' 27 16 = i := by
  rw [requestWord]
  iterate 3 rw [BitVec.extractLsb'_append_eq_of_le (by decide)]
  exact BitVec.extractLsb'_append_eq_right

@[simp] theorem requestWord_data : (requestWord data i y hd k).extractLsb' 43 8 = data := by
  rw [requestWord]
  iterate 3 rw [BitVec.extractLsb'_append_eq_of_le (by decide)]
  exact BitVec.extractLsb'_append_eq_left

end Fields

/-- A request word is its five fields and nothing else. -/
theorem requestWord_of_fields (q : RequestWord) :
    requestWord (q.extractLsb' 43 8) (q.extractLsb' 27 16) (q.extractLsb' 11 16)
      (q.extractLsb' 3 8) (q.extractLsb' 0 3) = q := by
  rw [requestWord]
  iterate 4 rw [BitVec.extractLsb'_append_extractLsb'_eq_extractLsb' (by decide)]
  exact BitVec.extractLsb'_eq_self

/-- The same, with the code as the number the decoder branches on. -/
theorem requestWord_of_code {q : RequestWord} {n : Nat} (hk : (q.extractLsb' 0 3).toNat = n) :
    requestWord (q.extractLsb' 43 8) (q.extractLsb' 27 16) (q.extractLsb' 11 16)
      (q.extractLsb' 3 8) (BitVec.ofNat 3 n) = q := by
  rw [← hk, BitVec.ofNat_toNat, BitVec.setWidth_eq, requestWord_of_fields]

/-! ## What the decoder's checks let through -/

@[simp] theorem checkOperands_eq_ok {k : BitVec 3} {op op' : Instr} :
    checkOperands k op = .ok op' ↔ op.wellFormed = true ∧ op = op' := by
  unfold checkOperands
  split <;> simp [*]

@[simp] theorem checkStray_eq_ok {k : BitVec 3} {clear : Bool} {op op' : Instr} :
    checkStray k clear op = .ok op' ↔ clear = true ∧ op.wellFormed = true ∧ op = op' := by
  unfold checkStray
  split <;> simp [*]

/-! ## From an operation to its word and back -/

/-- The word of FILL and of FILLGRAY is a descriptor, and it decodes to the FILL (R80, R91). -/
theorem decodeCommand_of_encode {op : Instr} {d : Descriptor} (h : encode op = some (.command d)) :
    decodeCommand d = op.expand := by
  cases op
  case fill | fillGray =>
    cases h
    exact decodeCommand_encodeCommand ..
  all_goals cases h

/-- The word of a well-formed request decodes to it, and no request is a pseudo-form (R84, R91). -/
theorem decodeRequest_of_encode {op : Instr} {q : RequestWord} (hwf : op.wellFormed = true)
    (h : encode op = some (.request q)) : decodeRequest q = .ok op.expand := by
  cases op
  case acquire | release | height | rowBounds | rowRead | rowWrite =>
    cases h
    simp [decodeRequest, requestWord_code, hwf, Instr.expand]
  all_goals cases h

/-- A decoded request is well formed and has that word: its code names the operation, and every field
is an operand or clear (R84, log 14). -/
theorem encode_of_decodeRequest {op : Instr} {q : RequestWord} (h : decodeRequest q = .ok op) :
    op.wellFormed = true ∧ encode op = some (.request q) := by
  dsimp only [decodeRequest] at h
  split at h
  case h_1 hk | h_2 hk | h_3 hk | h_4 hk | h_5 hk =>
    obtain ⟨hclear, hwf, rfl⟩ := checkStray_eq_ok.1 h
    have hq := requestWord_of_code hk
    simp only [Bool.and_eq_true, beq_iff_eq] at hclear
    simp only [hclear] at hq
    exact ⟨hwf, congrArg (some ∘ PortWord.request) hq⟩
  case h_6 hk =>
    obtain ⟨hwf, rfl⟩ := checkOperands_eq_ok.1 h
    exact ⟨hwf, congrArg (some ∘ PortWord.request) (requestWord_of_code hk)⟩
  case h_7 => cases h

/-! ## The statements -/

/-- Settles O3: a command's word is a descriptor, which is its fields; a request's word holds the code
and the operands in its fields, and nothing the decoder refuses. -/
theorem decodeEncodeAgree : Obligations.DecodeEncodeAgree := by
  intro op word hwf he
  cases word with
  | command d => exact congrArg Except.ok (decodeCommand_of_encode he)
  | request q => exact decodeRequest_of_encode hwf he

/-- Settles O4: every bit of either word is a bit of one field, and no field of an accepted word is
dropped. -/
theorem decodedOperationEncodesBack : Obligations.DecodedOperationEncodesBack := by
  intro word op h
  cases word with
  | command d =>
    cases h
    exact ⟨rfl, encode_decodeCommand d⟩
  | request q => exact encode_of_decodeRequest h

/-- Settles O1: closed words, each run through the decoder. -/
theorem decodeReadsSpecWords : Obligations.DecodeReadsSpecWords := by
  unfold Obligations.DecodeReadsSpecWords
  decide

/-- Settles O2: the operands are the fields of the descriptor. -/
theorem everyDescriptorIsFill : Obligations.EveryDescriptorIsFill := by
  intro d
  refine ⟨_, _, _, _, _, _, _, rfl, fun k hk => ?_, fun k hk => ?_⟩ <;>
    simp [hk]

end Sys2Proof
end

section
/-! The threshold lookup (R87, R100), and FILLGRAY as the FILL it expands to (R91). -/

namespace Sys2Proof.Machine

/-- The ROM address is the concatenation `{y[2:0], x[2:0]}` (R87). -/
theorem romAddress_eq_append (x y : Int) :
    (romAddress x y).toNat = (BitVec.ofInt 3 y ++ BitVec.ofInt 3 x).toNat := by
  have haddr := romAddress_toNat x y
  have hlow : (BitVec.ofInt 3 x).toNat < 2 ^ 3 := BitVec.isLt _
  rw [BitVec.toNat_append, ← Nat.shiftLeft_add_eq_or_of_lt hlow, Nat.shiftLeft_eq,
    BitVec.toNat_ofInt, BitVec.toNat_ofInt]
  omega

/-- Settles O11: the entry looked up is the one at the ROM address. -/
theorem threshResult : Obligations.ThreshResult :=
  fun x y _ => ⟨(romAddress x y).toFin, romAddress_toNat x y, romAddress_eq_append x y, rfl⟩

/-- In IDLE a FILL is accepted: its operands are latched and nothing else changes (R161). -/
theorem execFill_of_idle {s : State} (x y w h : Coord) (r g b : Byte) (hph : s.eng.ph = .idle)
    (hw : s.wires = Wires.rest) :
    execFill x y w h r g b s = .next { s with
      eng := { s.eng with cx := x, cy := y, cw := w, ch := h, cr := r, cg := g, cb := b,
                          ph := .acq } } := by
  simp [execFill, hph, phaseIdle, State.settle, State.drive, State.latch, hw]

/-- Settles O38: the meaning and the word of FILLGRAY are those of the FILL, which IDLE accepts. -/
theorem fillGrayIsFill : Obligations.FillGrayIsFill :=
  fun x y w h v _ => ⟨rfl, rfl, fun hph hw => execFill_of_idle x y w h v v v hph hw⟩

end Sys2Proof.Machine
end

section
/-! The period of the threshold and its 8×8 windows (R103). A window's ROM addresses run over all 64
entries, whatever the table; the permutation of R101 then makes the entries 0..63. -/

namespace Sys2Proof.Machine

theorem romAddress_add_eight_left (x y : Int) : romAddress (x + 8) y = romAddress x y := by
  simp [romAddress]

theorem romAddress_add_eight_right (x y : Int) : romAddress x (y + 8) = romAddress x y := by
  simp [romAddress]

/-- The entries of a table, read off in order of their indices. -/
theorem map_get_finRange {α : Type} {n : Nat} (v : Vector α n) :
    (List.finRange n).map v.get = v.toList :=
  List.ext_getElem (by simp) (by simp [Vector.get])

/-- The ROM address of the `n`-th pixel, row by row, of the 8×8 window with corner (x, y). -/
def windowAddress (x y : Int) (n : Fin 64) : Fin 64 :=
  (romAddress (x + (n.val % 8 : Nat)) (y + (n.val / 8 : Nat))).toFin

theorem windowAddress_val (x y : Int) (n : Fin 64) :
    ((windowAddress x y n).val : Int) =
      8 * ((y + (n.val / 8 : Nat)) % 8) + (x + (n.val % 8 : Nat)) % 8 :=
  romAddress_toNat _ _

/-- The address fixes column and row modulo 8, and a window is 8 columns by 8 rows. -/
theorem windowAddress_injective (x y : Int) : Function.Injective (windowAddress x y) := by
  intro m n h
  have hm := windowAddress_val x y m
  have hn := windowAddress_val x y n
  rw [h] at hm
  have hrow : m.val / 8 = n.val / 8 := by omega
  have hcol : m.val % 8 = n.val % 8 := by omega
  omega

/-- A window's addresses are all 64 of the ROM, each once. -/
theorem windowAddresses_perm (x y : Int) :
    ((List.finRange 64).map (windowAddress x y)).Perm (List.finRange 64) :=
  Equiv.Perm.map_finRange_perm
    (Equiv.ofBijective _ (Finite.injective_iff_bijective.mp (windowAddress_injective x y)))

/-- Every window holds each entry of the table once, for every table. -/
theorem windowThresholds_perm (lut : Vector Threshold 64) (x y : Int) :
    ((List.range 64).map fun n : Nat =>
      threshold lut (x + (n % 8 : Nat)) (y + (n / 8 : Nat))).Perm lut.toList := by
  have hentries := (windowAddresses_perm x y).map lut.get
  rw [map_get_finRange, List.map_map] at hentries
  rw [← List.map_coe_finRange_eq_range, List.map_map]
  exact hentries

/-- Settles O57: the address repeats every 8 columns and rows, and a window holds the whole table. -/
theorem thresholdWindows : Obligations.ThresholdWindows := by
  intro lut x y hlut
  refine ⟨?_, ?_, (windowThresholds_perm lut x y).trans hlut⟩
  · simp only [threshold, romAddress_add_eight_left]
  · simp only [threshold, romAddress_add_eight_right]

end Sys2Proof.Machine
end

section
/-! The clips on their outputs (R110, R112, R115), and the visible set they bound: a pixel is visible
where its row lies in the clipped row range and its column in the clipped column range (R118). -/

namespace Sys2Proof.Machine

/-- Settles O12: both results fit the 17 bits of the outputs. -/
theorem clipVResult : Obligations.ClipVResult := by
  intro y h bufH s
  obtain ⟨hyb, hye⟩ := clipV_exact y h bufH
  exact ⟨_, _, hyb, hye, rfl, rfl⟩

/-- Settles O13: both results fit the 17 bits of the outputs, where the row's maximum is 32767 too. -/
theorem clipHResult : Obligations.ClipHResult := by
  intro x w mn mx s
  obtain ⟨hxb, hxe⟩ := clipH_exact x w mn mx
  exact ⟨_, _, hxb, hxe, rfl, rfl⟩

/-- A row lies in the clipped range where it is the rectangle's and the buffer's (R110). -/
theorem Command.mem_rows_iff (c : Command) (t : Target) (j : Int) :
    ((c.rows t).1 ≤ j ∧ j < (c.rows t).2) ↔
      (c.y.toInt ≤ j ∧ j < c.y.toInt + c.h.toInt) ∧ 0 ≤ j ∧ j < t.height.toInt := by
  simp only [Command.rows, clipV, max_le_iff, lt_min_iff]
  exact and_and_and_comm

/-- A column lies in the clipped range where it is the rectangle's and the row's, whose maximum is
included (R112). -/
theorem Command.mem_columns_iff (c : Command) (t : Target) (col j : Int) :
    ((c.columns t j).1 ≤ col ∧ col < (c.columns t j).2) ↔
      (c.x.toInt ≤ col ∧ col < c.x.toInt + c.w.toInt) ∧
        (t.boundsAt j.toNat).1.toInt ≤ col ∧ col ≤ (t.boundsAt j.toNat).2.toInt := by
  simp only [Command.columns, clipH, max_le_iff, lt_min_iff, Int.lt_add_one_iff]
  exact and_and_and_comm

/-- A visible pixel lies inside the rectangle, the buffer's rows and its row's bounds (R118). -/
theorem Command.visible_iff (c : Command) (t : Target) (col j : Int) :
    c.visible t col j = true ↔
      c.y.toInt ≤ j ∧ j < c.y.toInt + c.h.toInt ∧ 0 ≤ j ∧ j < t.height.toInt ∧
        c.x.toInt ≤ col ∧ col < c.x.toInt + c.w.toInt ∧
        (t.boundsAt j.toNat).1.toInt ≤ col ∧ col ≤ (t.boundsAt j.toNat).2.toInt := by
  rw [Command.visible, decide_eq_true_eq, ← and_assoc, c.mem_rows_iff, c.mem_columns_iff]
  simp only [and_assoc]

/-- A rectangle whose width or height is not positive has no column or no row (R114). -/
theorem Command.visible_eq_false_of_nonpos {c : Command} (t : Target) (col j : Int)
    (hempty : c.w.toInt ≤ 0 ∨ c.h.toInt ≤ 0) : c.visible t col j = false := by
  rw [Bool.eq_false_iff, Ne, c.visible_iff]
  rintro ⟨htop, hbottom, -, -, hleft, hright, -⟩
  rcases hempty with hw | hh
  · omega
  · omega

/-- Settles O54: visible is inside both clipped ranges, and an empty rectangle contains no pixel. -/
theorem visibleSet : Obligations.VisibleSet :=
  fun c t col j => ⟨c.visible_iff t col j, Command.visible_eq_false_of_nonpos t col j⟩

end Sys2Proof.Machine
end

section
/-! The monochrome pixel path (R125 to R130): the numbers of INTENS, MSCALE and MCMP are those of
the rules, none cut by its width, and MPACK changes one bit of one byte. -/

namespace Sys2Proof.Machine

/-! ## The numbers of the datapath -/

/-- The weights 3, 4 and 1 sum to 8, so the intensity fits a byte (R126). -/
theorem intensity_toNat (r g b : Byte) :
    (intensity r g b).toNat = (3 * r.toNat + 4 * g.toNat + b.toNat) / 8 := by
  unfold intensity
  rw [BitVec.toNat_ofNat]
  omega

/-- The scaled intensity is at most 64, so it fits 7 bits (R127). -/
theorem scaled_toNat (i : Byte) : (scaled i).toNat = 64 * i.toNat / 255 := by
  unfold scaled
  rw [BitVec.toNat_ofNat]
  omega

/-- The closed form of MSCALE (R127). -/
theorem scaled_toNat_closed (i : Byte) :
    (scaled i).toNat = if i.toNat = 255 then 64 else i.toNat / 4 := by
  rw [scaled_toNat]
  split
  · omega
  · omega

theorem exceeds_iff (v : BitVec 7) (t : Threshold) : exceeds v t = true ↔ t.toNat < v.toNat :=
  decide_eq_true_iff

/-- The bit of a monochrome pixel is the one the rules write (R126 to R128). -/
theorem monoOn_eq_specOn (r g b : Byte) (t : Threshold) : monoOn r g b t = specOn r g b t := by
  rw [monoOn, exceeds, specOn, scaled_toNat, intensity_toNat]

/-- Settles O14: the output holds the intensity uncut. -/
theorem intensResult : Obligations.IntensResult := by
  intro r g b s
  refine ⟨intensity r g b, ?_, rfl, rfl⟩
  rw [intensity_toNat, one_mul]

/-- Settles O15: the output holds the scaled intensity uncut, in both its forms. -/
theorem mscaleResult : Obligations.MscaleResult :=
  fun i _ => ⟨scaled i, scaled_toNat i, scaled_toNat_closed i, rfl, rfl⟩

/-- Settles O16: the output is the comparator's. -/
theorem mcmpResult : Obligations.McmpResult :=
  fun v t _ => ⟨exceeds v t, exceeds_iff v t, rfl, rfl⟩

/-! ## One bit of one byte -/

/-- MPACK replaces the bit it names and keeps the seven others (R129). -/
theorem getLsbD_mergeBit (old : Byte) (k : Nat) (on : Bool) {n : Nat} (hn : n < 8) :
    (mergeBit old k on).getLsbD n = if n = k then on else old.getLsbD n := by
  have hmask : (1#8 <<< k).getLsbD n = decide (n = k) := by
    rw [← BitVec.twoPow_eq, BitVec.getLsbD_twoPow]
    grind
  unfold mergeBit
  split
  · next hon =>
    rw [BitVec.getLsbD_or, hmask]
    by_cases hk : n = k <;> simp [hk, hon]
  · next hoff =>
    rw [BitVec.getLsbD_and, BitVec.getLsbD_not, hmask]
    by_cases hk : n = k <;> simp_all

/-- The byte MPACK writes differs from the byte read in column `x`'s bit only (R59, R129). -/
theorem isMerged_mergeBit (old : Byte) (x : Int) (on : Bool) :
    IsMerged old (mergeBit old (monoBit x) on) (x % 8) on := by
  intro n hn
  have hbit : n = monoBit x ↔ (n : Int) = x % 8 := by
    unfold monoBit
    omega
  rw [getLsbD_mergeBit old _ on hn]
  simp only [hbit]

/-- A byte read and then written: memory, the answer lines and the trace change, and nothing else
(R56, R57). -/
theorem storeByte_loadByte (s : State) (hd : Handle) (row i : Coord) (v : Byte) :
    (s.loadByte hd row i).storeByte hd row i v = { s with
      tgt := { s.tgt with mem := Memory.write s.tgt.mem (byteAddress row i) v }
      wires := { s.wires with data := Memory.read s.tgt.mem (byteAddress row i) }
      trace := s.trace ++ [.rowRead hd row i (Memory.read s.tgt.mem (byteAddress row i)),
        .rowWrite hd row i v] } := by
  simp [State.storeByte, State.loadByte, State.record, State.retarget, State.drive, Target.store]

/-- Settles O17: the byte is read and written back with one bit replaced, and the write changes no
other byte. -/
theorem mpackResult : Obligations.MpackResult := by
  intro x y on s row i hx hy hrow hi hread hwrite hbyte hwf
  refine ⟨_, Memory.write s.tgt.mem (byteAddress row i) _, isMerged_mergeBit _ x.toInt on,
    Memory.read_write_same hwf _ _, fun a ha => Memory.read_write_other hwf _ ha.symm,
    execMpack_next.2 ⟨row, i, toPort_of_toInt hrow hy,
      toPort_of_toInt hi (pixelOffset_nonneg .mono hx), hread, hwrite, hbyte,
      (storeByte_loadByte ..).symm⟩⟩

/-- In `MONO` the pixel operation is the monochrome one (R157). -/
theorem pixel_of_mono {s : State} (hf : s.eng.fmt = .mono) : pixel s = monoPixel s := by
  rw [pixel, hf]

/-- Settles O33: the pixel is the MPACK of its bit, and PX steps within its width since a column
remains. -/
theorem fillMonoPixel : Obligations.FillMonoPixel := by
  intro c s y i hph hf hw hcol hx hy hrow hi hread hwrite hbyte hwf
  have hxe := wide_toInt_bounds s.eng.xe
  have hmono := (monoPixel_next (s := s)).2 ⟨y, i, toPort_of_toInt hrow hy,
    toPort_of_toInt hi (pixelOffset_nonneg .mono hx), hread, hwrite, hbyte, rfl⟩
  refine ⟨_, Memory.write s.tgt.mem (byteAddress y i) _, s.eng.px + 1,
    isMerged_mergeBit _ s.eng.px.toInt _, wide_succ_toInt (by omega),
    Memory.read_write_same hwf _ _, fun a ha => Memory.read_write_other hwf _ ha.symm, ?_⟩
  rw [exec_of_pix c hph hcol, pixel_of_mono hf, hmono, andThen_next, storeByte_loadByte,
    ← monoOn_eq_specOn]
  simp [State.settle, State.latch, State.drive, hph, hw]

end Sys2Proof.Machine
end

section
/-! White, black and gray (R131, R134), and the coverage of an 8×8 window (R132, R147): a window's
thresholds are 0..63, each once, so as many lie below `k` as there are numbers below `k`. -/

namespace Sys2Proof.Machine

/-! ## White, black and gray -/

theorem specOn_iff (r g b : Byte) (t : Threshold) :
    specOn r g b t = true ↔
      t.toNat < 64 * ((3 * r.toNat + 4 * g.toNat + b.toNat) / 8) / 255 :=
  decide_eq_true_iff

/-- A colour that exceeds the highest threshold, 63, is white: only intensity 255 scales to 64
(R127, R131). -/
theorem eq_white_of_monoOn_max {r g b : Byte} (h : monoOn r g b 63 = true) :
    r = 255 ∧ g = 255 ∧ b = 255 := by
  rw [monoOn_eq_specOn, specOn_iff] at h
  have hmax : (63 : Threshold).toNat = 63 := rfl
  have hwhite : (255 : Byte).toNat = 255 := rfl
  simp only [← BitVec.toNat_inj, hwhite]
  omega

theorem monoOn_white (t : Threshold) : monoOn 255 255 255 t = true := by
  rw [monoOn_eq_specOn, specOn_iff]
  exact t.isLt

theorem monoOn_black (t : Threshold) : monoOn 0 0 0 t = false := by
  rw [monoOn_eq_specOn, Bool.eq_false_iff, Ne, specOn_iff]
  exact Nat.not_lt_zero _

theorem intensity_gray (v : Byte) : intensity v v v = v := by
  rw [← BitVec.toNat_inj, intensity_toNat]
  omega

/-- Settles O55: only white exceeds the highest threshold, black exceeds none, and the weights of
INTENS sum to 8. -/
theorem whiteBlackGray : Obligations.WhiteBlackGray := by
  refine ⟨fun r g b => ⟨fun hall => eq_white_of_monoOn_max (hall 63), ?_⟩, monoOn_black,
    intensity_gray⟩
  rintro ⟨rfl, rfl, rfl⟩
  exact monoOn_white

/-! ## Coverage -/

theorem increments_iff (c : Byte) (t : Threshold) :
    increments c t = true ↔ t.toNat < scaledRemainder c :=
  decide_eq_true_iff

/-- A scaled remainder is at most 63 (R141). -/
theorem scaledRemainder_lt (c : Byte) : scaledRemainder c < 64 := by
  unfold scaledRemainder
  omega

/-- The level without the cap, which is never reached: at `c = 255` the remainder is 0 (R141,
R145). -/
theorem level_toNat (c : Byte) (t : Threshold) :
    (level c t).toNat = c.toNat / 85 + (increments c t).toNat := by
  have hcap : c.toNat / 85 + (increments c t).toNat ≤ 3 := by
    by_cases hinc : increments c t = true
    · have hpos := (increments_iff c t).1 hinc
      unfold scaledRemainder at hpos
      rw [hinc, Bool.toNat_true]
      omega
    · rw [Bool.not_eq_true] at hinc
      rw [hinc, Bool.toNat_false]
      omega
  rw [level, BitVec.toNat_ofNat, Nat.min_eq_left hcap, Nat.mod_eq_of_lt (by omega)]

/-- The higher of a channel's two levels goes to the thresholds below its scaled remainder
(R141). -/
theorem level_eq_succ_iff (c : Byte) (t : Threshold) :
    (level c t).toNat = c.toNat / 85 + 1 ↔ t.toNat < scaledRemainder c := by
  rw [level_toNat, Nat.add_left_cancel_iff, Bool.toNat_eq_one, increments_iff]

theorem count_lt_eq_min (k n : Nat) : Nat.count (· < k) n = min k n := by
  induction n with
  | zero => simp
  | succ n ih =>
    rw [Nat.count_succ, ih]
    split <;> omega

/-- In a window of a permutation, `k` thresholds lie below `k`, for every `k` up to 64 (R103). -/
theorem windowThresholds_countP_lt {lut : Vector Threshold 64} (hlut : IsPermutation lut)
    (x y : Int) {k : Nat} (hk : k ≤ 64) :
    (List.range 64).countP (fun n : Nat =>
      decide ((threshold lut (x + (n % 8 : Nat)) (y + (n / 8 : Nat))).toNat < k)) = k := by
  have hperm := ((windowThresholds_perm lut x y).trans hlut).countP_eq
    (fun t => decide (t.toNat < k))
  rw [List.countP_map, List.countP_map] at hperm
  refine hperm.trans ?_
  calc (List.range 64).countP ((fun t : Threshold => decide (t.toNat < k)) ∘ BitVec.ofNat 6)
      = Nat.count (· < k) 64 := List.countP_congr fun n hn => by
        have hlt : n < 64 := List.mem_range.1 hn
        simp [Nat.mod_eq_of_lt hlt]
    _ = k := by rw [count_lt_eq_min, Nat.min_eq_left hk]

/-- Settles O56: both counts are of the thresholds below one number that is at most 64. -/
theorem coverageLaw : Obligations.CoverageLaw := by
  intro lut x0 y0 r g b c hlut
  constructor
  · simp only [monoOn_eq_specOn]
    exact windowThresholds_countP_lt hlut x0 y0 (by omega)
  · simp only [level_eq_succ_iff]
    exact windowThresholds_countP_lt hlut x0 y0 (scaledRemainder_lt c).le

end Sys2Proof.Machine
end

section
/-! The packed-colour pixel path (R140 to R145): the numbers of CLEVEL and CPACK are those of the
rules, none cut by its width, and the pixel is one store of the packed byte. -/

namespace Sys2Proof.Machine

/-! ## One channel's level -/

theorem increments_toNat (c : Byte) (t : Threshold) :
    (increments c t).toNat = if 64 * (c.toNat % 85) / 85 > t.toNat then 1 else 0 :=
  Bool.cond_decide ..

/-- CLEVEL without the cap, in the numbers of the rule (R141, R145). -/
theorem level_toNat_eq_add (c : Byte) (t : Threshold) :
    (level c t).toNat =
      c.toNat / 85 + (if 64 * (c.toNat % 85) / 85 > t.toNat then 1 else 0) := by
  rw [level_toNat, increments_toNat]

/-- The cap changes nothing: a level is at most 3 (R145). -/
theorem level_toNat_eq_specLevel (c : Byte) (t : Threshold) :
    (level c t).toNat = specLevel c t := by
  have hle : (level c t).toNat ≤ 3 := Nat.le_of_lt_succ (level c t).isLt
  rw [level_toNat_eq_add] at hle ⊢
  exact (Nat.min_eq_left hle).symm

/-- Settles O18: the output is the level, with or without the cap. -/
theorem clevelResult : Obligations.ClevelResult :=
  fun c t _ => ⟨level c t, level_toNat_eq_specLevel c t, level_toNat_eq_add c t, rfl, rfl⟩

/-- A multiple of 85 leaves no remainder to dither, so its level is exact at every threshold
(R144). -/
theorem level_toNat_of_mod_eq_zero {c : Byte} (t : Threshold) (h : c.toNat % 85 = 0) :
    (level c t).toNat = c.toNat / 85 := by
  simp [level_toNat_eq_add, h]

/-- Between two channels of equal quotient the remainder rises, and with it the comparison; where the
quotient rises, it makes up for an increment lost (R144). -/
theorem level_toNat_mono (t : Threshold) {c c' : Byte} (h : c.toNat ≤ c'.toNat) :
    (level c t).toNat ≤ (level c' t).toNat := by
  rw [level_toNat, level_toNat]
  obtain hq | hq := (Nat.div_le_div_right (c := 85) h).eq_or_lt
  · have hrem : scaledRemainder c ≤ scaledRemainder c' := by
      unfold scaledRemainder
      omega
    have hinc : increments c t ≤ increments c' t := fun hc =>
      (increments_iff c' t).2 (((increments_iff c t).1 hc).trans_le hrem)
    exact Nat.add_le_add hq.le (Bool.toNat_le_toNat hinc)
  · have hinc := Bool.toNat_le (increments c t)
    omega

/-- Settles O58: 0, 85, 170 and 255 are multiples of 85, and the level is monotonic. -/
theorem levelLaws : Obligations.LevelLaws :=
  fun t => ⟨level_toNat_of_mod_eq_zero t rfl, level_toNat_of_mod_eq_zero t rfl,
    level_toNat_of_mod_eq_zero t rfl, level_toNat_of_mod_eq_zero t rfl,
    fun _ _ => level_toNat_mono t⟩

/-! ## The packed byte -/

/-- Bits side by side, as a sum of their weights. -/
theorem toNat_append_eq_add {m n : Nat} (x : BitVec m) (y : BitVec n) :
    (x ++ y).toNat = 2 ^ n * x.toNat + y.toNat := by
  rw [BitVec.toNat_append, ← Nat.shiftLeft_add_eq_or_of_lt y.isLt, Nat.shiftLeft_eq, Nat.mul_comm]

/-- The tag and the three levels side by side are `0xC0 + 16·lr + 4·lg + lb` (R142). -/
theorem pack_toNat (lr lg lb : Level) :
    (pack lr lg lb).toNat = 0xC0 + 16 * lr.toNat + 4 * lg.toNat + lb.toNat := by
  have htag : (0b11#2).toNat = 3 := rfl
  rw [pack, toNat_append_eq_add, toNat_append_eq_add, toNat_append_eq_add, htag]
  omega

/-- Settles O19: the output is the byte, as a sum and bit by bit. -/
theorem cpackResult : Obligations.CpackResult :=
  fun lr lg lb _ => ⟨pack lr lg lb, pack_toNat lr lg lb, rfl, rfl, rfl⟩

/-- The byte of a colour pixel is the one the rules write (R140 to R142). -/
theorem colorByte_toNat (r g b : Byte) (t : Threshold) :
    (colorByte r g b t).toNat = specPacked r g b t := by
  rw [colorByte, pack_toNat, level_toNat_eq_specLevel, level_toNat_eq_specLevel,
    level_toNat_eq_specLevel, specPacked]

/-! ## The pixel -/

/-- In `COLOR` the pixel operation is the packed-colour one (R157). -/
theorem pixel_of_color {s : State} (hf : s.eng.fmt = .color) : pixel s = colorPixel s := by
  rw [pixel, hf]

/-- Settles O34: the pixel is one store of the packed byte, and PX steps within its width since a
column remains. -/
theorem fillColorPixel : Obligations.FillColorPixel := by
  intro c s y i hph hf hw hcol hx hy hrow hi hwrite hbyte hwf
  have hxe := wide_toInt_bounds s.eng.xe
  have hcolor := (colorPixel_next (s := s)).2 ⟨y, i, toPort_of_toInt hrow hy,
    toPort_of_toInt hi hx, hwrite, hbyte, rfl⟩
  refine ⟨_, Memory.write s.tgt.mem (byteAddress y i) _, s.eng.px + 1, colorByte_toNat ..,
    wide_succ_toInt (by omega), Memory.read_write_same hwf _ _,
    fun a ha => Memory.read_write_other hwf _ ha.symm, ?_⟩
  rw [exec_of_pix c hph hcol, pixel_of_color hf, hcolor, andThen_next]
  simp [State.storeByte, State.record, State.retarget, Target.store, State.settle, State.latch,
    State.drive, hph, hw]

end Sys2Proof.Machine
end

section
/-! FILL, phase by phase: the whole next state of each phase (R161 to R167). -/

namespace Sys2Proof.Machine

/-! ## The phase that runs -/

section Phases

variable (c : Command) {s : State}

theorem exec_of_phaseRow (hph : s.eng.ph = .row) : exec c.instr s = phaseRow s := by
  simp [exec_instr, execFill, hph]

theorem exec_of_phasePix (hph : s.eng.ph = .pix) : exec c.instr s = phasePix s := by
  simp [exec_instr, execFill, hph]

theorem exec_of_rsp (hph : s.eng.ph = .rsp) : exec c.instr s = phaseRsp s := by
  simp [exec_instr, execFill, hph]

end Phases

/-! ## The statements -/

/-- Settles O29: IDLE accepts the command. -/
theorem fillAccepted : Obligations.FillAccepted :=
  fun x y w h r g b _ hph hw => execFill_of_idle x y w h r g b hph hw

/-- Settles O30: the answer to ACQUIRE decides between the handle and the exception. -/
theorem fillAcquires : Obligations.FillAcquires := by
  intro c s hph hs hw
  rw [exec_of_acq c hph, phaseAcq]
  refine ⟨fun hd hg => ?_, fun hr => ?_⟩
  · rw [execAcquire_of_willGrant hs hg, andThen_next, State.settle, ← hw]
    rfl
  · rw [execAcquire_of_willRefuse hs hr, andThen_next, State.settle, ← hw]
    rfl

/-- Settles O31: HEIGHT is served, and the clipped rows fit the registers. -/
theorem fillReadsHeight : Obligations.FillReadsHeight := by
  intro c s hph hs hw
  obtain ⟨hyb, hye⟩ := clipV_exact s.eng.cy s.eng.ch s.tgt.height
  refine ⟨_, _, hyb, hye, ?_⟩
  rw [exec_of_hgt c hph, phaseHgt_next.2 ⟨hs, rfl⟩, State.settle, ← hw]
  rfl

/-- Settles O32: no row remaining leads to REL; a row remaining is asked for its bounds, and its
clipped columns fit the registers. -/
theorem fillOpensRow : Obligations.FillOpensRow := by
  intro c s hph hw
  refine ⟨fun hdone => ?_, fun y mn mx hrow h0 hy hbounds hmn hs => ?_⟩
  · rw [exec_of_phaseRow c hph, phaseRow_next.2 (.inr ⟨hdone, rfl⟩), State.settle, ← hw]
    rfl
  · obtain ⟨hxb, hxe⟩ := clipH_exact s.eng.cx s.eng.cw mn mx
    have hopen := openRow_next.2 ⟨y, toPort_of_toInt hy h0, hs, by rwa [hbounds], rfl⟩
    refine ⟨_, _, hxb, hxe, ?_⟩
    rw [exec_of_row c hph hrow, hopen, State.settle, ← hw, hbounds]
    rfl

/-- Settles O35: no column remaining closes the row, and PY steps within its width. -/
theorem fillClosesRow : Obligations.FillClosesRow := by
  intro c s hph hw hdone hpy
  refine ⟨s.eng.py + 1, wide_succ_toInt hpy, ?_⟩
  rw [exec_of_phasePix c hph, phasePix_next.2 (.inr ⟨hdone, rfl⟩), State.settle, ← hw]
  rfl

/-- Settles O36: RELEASE is served. -/
theorem fillReleases : Obligations.FillReleases := by
  intro c s hph hs hw
  rw [exec_of_rel c hph, phaseRel_next.2 ⟨hs, rfl⟩, State.settle, ← hw]
  rfl

/-- Settles O37: the response is the status latch, and no wire was driven. -/
theorem fillResponds : Obligations.FillResponds := by
  refine ⟨rfl, rfl, fun c s hph hw => ?_⟩
  rw [exec_of_rsp c hph, phaseRsp, State.settle, ← hw]
  rfl

end Sys2Proof.Machine
end

section
/-! What a step of the machine is (R160, R161), where it leads, what it responds, and the pixel it
works on. -/

namespace Sys2Proof.Machine

/-! ## A step out of IDLE and out of a busy phase -/

/-- An idle engine takes the command off the port and accepts it (R161). -/
theorem step_of_presented {s : State} {d : Descriptor} {ds : List Descriptor}
    (hr : s.host.rst = false) (hph : s.eng.ph = .idle) (hp : s.host.program = d :: ds) :
    step s = exec (decodeCommand d) s.takeCommand := by
  simp [step, hr, hph, hp]

/-- A busy engine goes on with the latched command (R160, R208). -/
theorem step_of_busy {s : State} (hr : s.host.rst = false) (hph : s.eng.ph ≠ .idle) :
    step s = exec s.eng.command.instr s := by
  rw [step, if_neg (by simp [hr]), currentCommand_eq_instr]
  split
  · contradiction
  · rfl

/-- Settles O6: the command decoded is the descriptor's. -/
theorem stepRunsPresentedCommand : Obligations.StepRunsPresentedCommand := by
  intro s d ds i hr hph hp hd
  obtain rfl : decodeCommand d = i := Except.ok.inj hd
  rw [step_of_presented hr hph hp, State.takeCommand, hp, List.tail_cons]

/-! ## Where a step leads and what it responds -/

/-- Settles O45: each phase names the phase it leads to. -/
theorem stepFollowsPhaseGraph : Obligations.StepFollowsPhaseGraph := by
  intro c s t h
  rcases execFill_cases h with
    ⟨hph, h⟩ | ⟨hph, h⟩ | ⟨hph, h⟩ | ⟨hph, h⟩ | ⟨hph, h⟩ | ⟨hph, h⟩ | ⟨hph, h⟩
  · cases h
    simp [hph, Phase.successors]
  · obtain ⟨-, _ | hd, -, rfl⟩ := phaseAcq_next h <;> simp [hph, Phase.successors]
  · obtain ⟨-, rfl⟩ := phaseHgt_next.1 h
    simp [hph, Phase.successors, afterHeight]
  · obtain ⟨-, ho⟩ | ⟨-, rfl⟩ := phaseRow_next.1 h
    · obtain ⟨y, -, -, -, rfl⟩ := openRow_next.1 ho
      simp [hph, Phase.successors, afterBounds]
    · simp [hph, Phase.successors]
  · obtain ⟨-, heng, -⟩ | ⟨-, rfl⟩ := phasePix_cases h
    · simp [hph, Phase.successors, heng]
    · simp [hph, Phase.successors]
  · obtain ⟨-, rfl⟩ := phaseRel_next.1 h
    simp [hph, Phase.successors]
  · cases h
    simp [hph, Phase.successors]

/-- A step of FILL responds in RSP, with the status latch, and in no other phase (R167). -/
theorem fill_responses {c : Command} {s t : State} (h : exec c.instr s = .next t) :
    t.host.responses = s.host.responses ++ (if s.eng.ph = .rsp then [s.eng.st] else []) := by
  split
  · next hph =>
    rw [exec_of_rsp c hph] at h
    cases h
    rfl
  · next hph =>
    obtain ⟨-, -, -, -, -, -, -, -, -, -, -, -, hresp, -⟩ := fillStepFrame c s t h
    rw [hresp hph, List.append_nil]

/-- Settles O47: only a step of FILL responds; reset, in IDLE, loses no response. -/
theorem responsesOnlyInRsp : Obligations.ResponsesOnlyInRsp := by
  intro s t h
  obtain ⟨-, hph, rfl⟩ | ⟨-, hph, -, rfl⟩ | ⟨-, -, d, ds, -, he⟩ | ⟨-, -, he⟩ := step_cases h
  · simp [hph]
  · simp [hph]
  · exact fill_responses (c := descriptorCommand d) (s := s.takeCommand) he
  · exact fill_responses (c := s.eng.command) he

/-! ## The pixel phase PIX works on -/

/-- Settles O43: the position lies between the clipped ends, and the column's last value is a
coordinate, which the port carries. -/
theorem pixelIsVisible : Obligations.PixelIsVisible := by
  intro s hi hph hcol
  refine ⟨hi.pixel_visible hph hcol, ?_⟩
  obtain ⟨-, hyb, hye, hfromy, -⟩ := hi.rows (.inr hph)
  obtain ⟨hrow, -, hminx, hxb, hxe, hfromx, -⟩ := hi.columns hph
  have hmaxx := coord_toInt_bounds s.eng.maxx
  have hhgt := coord_toInt_bounds s.eng.hgt
  omega

end Sys2Proof.Machine
end

section
/-! Runs of several steps, and the refused fill (R156, R171, R180). -/

namespace Sys2Proof.Machine

/-! ## Runs -/

theorem run_succ_of_step {M : Host.Core} {k : Nat} {s u : M.State} (h : M.step s = .next u) :
    M.run (k + 1) s = M.run k u := by
  rw [Host.Core.run, h]

theorem run_add {M : Host.Core} {m n : Nat} {s u : M.State} (h : M.run m s = .next u) :
    M.run (m + n) s = M.run n u := by
  induction m generalizing s with
  | zero =>
    cases h
    rw [Nat.zero_add]
  | succ m ih =>
    rw [Host.Core.run] at h
    split at h
    · next v hv => rw [Nat.succ_add, run_succ_of_step hv, ih h]
    · contradiction
    · contradiction

/-- `k` steps lead from `s` to `t`. -/
def Reaches (k : Nat) (s t : State) : Prop := Host.Core.run Sys2Proof.core k s = .next t

theorem Reaches.refl (s : State) : Reaches 0 s s := rfl

theorem Reaches.cons {k : Nat} {s u t : State} (h : step s = .next u) (hut : Reaches k u t) :
    Reaches (k + 1) s t :=
  (run_succ_of_step (M := Sys2Proof.core) h).trans hut

theorem Reaches.single {s t : State} (h : step s = .next t) : Reaches 1 s t :=
  .cons h (.refl t)

theorem Reaches.trans {m n : Nat} {s u t : State} (hsu : Reaches m s u) (hut : Reaches n u t) :
    Reaches (m + n) s t :=
  (run_add (M := Sys2Proof.core) hsu).trans hut

/-! ## Accepting a command -/

/-- An idle engine after it took this command off the port (R161). -/
def State.accepted (s : State) (c : Command) : State :=
  { s with eng := { s.eng with cx := c.x, cy := c.y, cw := c.w, ch := c.h, cr := c.r, cg := c.g,
                               cb := c.b, ph := .acq }
           host := s.takeCommand.host
           wires := Wires.rest }

theorem step_of_accepted {c : Command} {s : State} {d : Descriptor} {ds : List Descriptor}
    (hr : s.host.rst = false) (hph : s.eng.ph = .idle) (hp : s.host.program = d :: ds)
    (hd : decode (.command d) = .ok c.instr) : step s = .next (s.accepted c) := by
  rw [step_of_presented hr hph hp, Except.ok.inj hd, exec_instr, execFill, State.takeCommand_eng,
    hph]
  rfl

/-- A busy engine's step is the step of FILL with the latched command (R160). -/
theorem step_of_exec {s t : State} (hr : s.host.rst = false) (hph : s.eng.ph ≠ .idle)
    (h : exec s.eng.command.instr s = .next t) : step s = .next t :=
  (step_of_busy hr hph).trans h

/-- Settles O51: the command is accepted, ACQUIRE raises the exception, and RSP responds with it. -/
theorem refusedFill : Obligations.RefusedFill := by
  intro c s d ds hr hph hp hd hs hrefuse
  have hacq := step_of_exec (s := s.accepted c) hr nofun
    ((fillAcquires _ (s.accepted c) rfl hs rfl).2 hrefuse)
  refine ⟨_, Reaches.cons (step_of_accepted hr hph hp hd) (.cons hacq (.single
    (step_of_exec hr nofun (fillResponds.2.2 _ _ rfl rfl)))), rfl, ?_, rfl, rfl⟩
  simp [State.accepted, hp]

end Sys2Proof.Machine
end

section
/-! What a fill may rely on beside a target that keeps its duties (R73), and the pixel step in
either format (R165). -/

namespace Sys2Proof.Machine

/-! ## A target that keeps its duties -/

/-- Duty T6 for a row of the buffer given as a number (R73). -/
theorem Target.KeepsDuties.minX_nonneg_of_row {t : Target} {fmt : PixelFormat}
    (hk : t.KeepsDuties fmt) {j : Int} (h0 : 0 ≤ j) (hj : j < t.height.toInt) :
    0 ≤ (t.boundsAt j.toNat).1.toInt :=
  hk.minX_nonneg j.toNat (by rwa [Int.toNat_of_nonneg h0])

/-- Duty T7 for a pixel of a row of the buffer (R65, R73). -/
theorem Target.KeepsDuties.hasByte_of_pixel {t : Target} {fmt : PixelFormat}
    (hk : t.KeepsDuties fmt) {j col : Int} (h0 : 0 ≤ j) (hj : j < t.height.toInt)
    (hmn : (t.boundsAt j.toNat).1.toInt ≤ col) (hmx : col ≤ (t.boundsAt j.toNat).2.toInt) :
    t.hasByte (byteAddress (BitVec.ofInt 16 j) (BitVec.ofInt 16 (pixelOffset fmt col))) = true := by
  obtain ⟨y, rfl⟩ := Int.eq_ofNat_of_zero_le h0
  rw [BitVec.ofInt_natCast]
  exact hk.backed y hj col hmn hmx

/-! ## The pixel step -/

/-- Phase PIX with a column remaining issues the transactions of pixel (PX, PY), stores what they
write, and steps PX (R165, R170). -/
theorem exec_pixel (c : Command) {s : State} (hph : s.eng.ph = .pix) (hw : s.wires = Wires.rest)
    (hcol : s.eng.px.toInt < s.eng.xe.toInt) {row i : Coord}
    (hy : toPort s.eng.py.toInt = some row)
    (hi : toPort (pixelOffset s.eng.fmt s.eng.px.toInt) = some i) (hs : s.tgt.silent = [])
    (hbyte : s.tgt.hasByte (byteAddress row i) = true) {new : List Txn}
    (hnew : new = s.eng.command.pixelTrace s.eng.fmt s.eng.lut s.eng.hd s.eng.py.toInt
      s.eng.px.toInt s.tgt.mem) :
    exec c.instr s = .next { s with
      eng := { s.eng with px := s.eng.px + 1 }
      tgt := { s.tgt with mem := new.foldl Txn.memoryAfter s.tgt.mem }
      trace := s.trace ++ new } := by
  obtain ⟨-, -, rfl⟩ := toPort_eq_some.1 hy
  obtain ⟨-, -, hoff⟩ := toPort_eq_some.1 hi
  rw [exec_of_pix c hph hcol]
  cases hf : s.eng.fmt with
  | mono =>
    rw [hf] at hi hoff hnew
    rw [pixel_of_mono hf, monoPixel_next.2 ⟨_, i, hy, hi, by simp [hs], by simp [hs], hbyte, rfl⟩,
      andThen_next, storeByte_loadByte, hnew, Command.pixelTrace, hoff, State.settle, ← hw, ← hph]
    rfl
  | color =>
    rw [hf] at hi hoff hnew
    rw [pixel_of_color hf, colorPixel_next.2 ⟨_, i, hy, hi, by simp [hs], hbyte, rfl⟩,
      andThen_next, hnew, Command.pixelTrace, hoff, State.settle, ← hw, ← hph]
    rfl

end Sys2Proof.Machine
end

section
/-! A granted fill, step by step (R161 to R167): each step adds its transactions to those issued so
far, and pixel memory is what they leave. -/

namespace Sys2Proof.Machine

/-- A fill of `c`, presented in `s₀` and granted with handle `hd`, has issued the transactions
`done`, ACQUIRE first, and has not released the target yet. -/
structure Granted (c : Command) (s₀ : State) (hd : Handle) (done : List Txn) (s : State) :
    Prop where
  command : s.eng.command = c
  fmt : s.eng.fmt = s₀.eng.fmt
  lut : s.eng.lut = s₀.eng.lut
  handle : s.eng.hd = hd
  host : s.host = s₀.takeCommand.host
  tgt : s.tgt = { s₀.tgt.answered with
    lock := .held, mem := done.foldl Txn.memoryAfter s₀.tgt.mem }
  wires : s.wires = Wires.rest
  trace : s.trace = s₀.trace ++ done

/-- The outcome of a granted fill that issued the transactions `done`, RELEASE last. -/
structure Completed (s₀ : State) (done : List Txn) (s : State) : Prop where
  ph : s.eng.ph = .idle
  fmt : s.eng.fmt = s₀.eng.fmt
  lut : s.eng.lut = s₀.eng.lut
  host : s.host = { s₀.takeCommand.host with responses := s₀.host.responses ++ [.success] }
  tgt : s.tgt = { s₀.tgt.answered with
    lock := .free, mem := done.foldl Txn.memoryAfter s₀.tgt.mem }
  trace : s.trace = s₀.trace ++ done

namespace Granted

variable {c : Command} {s₀ s : State} {hd : Handle} {done : List Txn}

/-! ## What the fill sees of the target and of its command -/

theorem silent (h : Granted c s₀ hd done s) : s.tgt.silent = s₀.tgt.silent := by simp [h.tgt]

theorem height (h : Granted c s₀ hd done s) : s.tgt.height = s₀.tgt.height := by simp [h.tgt]

theorem boundsAt (h : Granted c s₀ hd done s) (y : Nat) : s.tgt.boundsAt y = s₀.tgt.boundsAt y := by
  simp [h.tgt, Target.boundsAt]

theorem hasByte (h : Granted c s₀ hd done s) (a : Nat) : s.tgt.hasByte a = s₀.tgt.hasByte a := by
  simp [h.tgt, Target.hasByte]

theorem mem (h : Granted c s₀ hd done s) : s.tgt.mem = done.foldl Txn.memoryAfter s₀.tgt.mem := by
  simp [h.tgt]

theorem rst (h : Granted c s₀ hd done s) (hr : s₀.host.rst = false) : s.host.rst = false := by
  simpa [h.host] using hr

theorem rows (h : Granted c s₀ hd done s) :
    clipV s.eng.cy.toInt s.eng.ch.toInt s.tgt.height.toInt = c.rows s₀.tgt := by
  rw [h.height, ← h.command]
  rfl

theorem columns (h : Granted c s₀ hd done s) (j : Int) :
    clipH s.eng.cx.toInt s.eng.cw.toInt (s₀.tgt.boundsAt j.toNat).1.toInt
      (s₀.tgt.boundsAt j.toNat).2.toInt = c.columns s₀.tgt j := by
  rw [← h.command]
  rfl

/-! ## Registers latched and transactions issued -/

/-- The fill goes on, whatever the phase, the clip registers and the scan position become. -/
theorem latch (h : Granted c s₀ hd done s) (e : Engine) (hcommand : e.command = s.eng.command)
    (hfmt : e.fmt = s.eng.fmt) (hlut : e.lut = s.eng.lut) (hhd : e.hd = s.eng.hd) :
    Granted c s₀ hd done { s with eng := e } :=
  { h with
    command := hcommand.trans h.command
    fmt := hfmt.trans h.fmt
    lut := hlut.trans h.lut
    handle := hhd.trans h.handle }

/-- New transactions are added to the trace and carried out on pixel memory. -/
theorem issue (h : Granted c s₀ hd done s) (new : List Txn) (e : Engine)
    (hcommand : e.command = s.eng.command) (hfmt : e.fmt = s.eng.fmt) (hlut : e.lut = s.eng.lut)
    (hhd : e.hd = s.eng.hd) :
    Granted c s₀ hd (done ++ new) { s with
      eng := e
      tgt := { s.tgt with mem := new.foldl Txn.memoryAfter s.tgt.mem }
      trace := s.trace ++ new } :=
  { h.latch e hcommand hfmt hlut hhd with
    tgt := by simp [h.tgt, List.foldl_append]
    trace := by simp [h.trace, List.append_assoc] }

/-! ## One step in each phase -/

variable (hr : s₀.host.rst = false) (hk : s₀.tgt.KeepsDuties s₀.eng.fmt)

include hk in
theorem answered (h : Granted c s₀ hd done s) (k : ReqKind) : k ∉ s.tgt.silent := by
  simp [h.silent, hk.answers]

include hr

/-- ROW leaves the scan when no row remains (R164). -/
theorem step_row_done (h : Granted c s₀ hd done s) (hph : s.eng.ph = .row)
    (hdone : s.eng.ye.toInt ≤ s.eng.py.toInt) :
    ∃ t, step s = .next t ∧ Granted c s₀ hd done t ∧ t.eng.ph = .rel :=
  ⟨_, step_of_exec (h.rst hr) (by simp [hph])
    ((fillOpensRow s.eng.command s hph h.wires).1 hdone.not_gt), h.latch _ rfl rfl rfl rfl, rfl⟩

/-- PIX closes the row when no column remains (R165). -/
theorem step_pix_done (h : Granted c s₀ hd done s) (hph : s.eng.ph = .pix)
    (hdone : s.eng.xe.toInt ≤ s.eng.px.toInt) (hbuf : s.eng.py.toInt < s₀.tgt.height.toInt) :
    ∃ t, step s = .next t ∧ Granted c s₀ hd done t ∧ t.eng.ph = .row ∧
      t.eng.py.toInt = s.eng.py.toInt + 1 ∧ t.eng.ye = s.eng.ye := by
  have hheight := (coord_toInt_bounds s₀.tgt.height).2
  obtain ⟨py, hpy, he⟩ := fillClosesRow s.eng.command s hph h.wires hdone.not_gt (by omega)
  exact ⟨_, step_of_exec (h.rst hr) (by simp [hph]) he, h.latch _ rfl rfl rfl rfl, rfl, hpy, rfl⟩

include hk

/-- ACQUIRE of the accepted command is granted (R162). -/
theorem step_acq (hg : s₀.tgt.WillGrant hd) :
    ∃ t, step (s₀.accepted c) = .next t ∧ Granted c s₀ hd [.acquire (some hd)] t ∧
      t.eng.ph = .hgt := by
  have hs : .acquire ∉ (s₀.accepted c).tgt.silent := by simp [State.accepted, hk.answers]
  have hacq := (fillAcquires (s₀.accepted c).eng.command (s₀.accepted c) rfl hs rfl).1 hd hg
  refine ⟨_, step_of_exec (s := s₀.accepted c) hr nofun hacq,
    ⟨rfl, rfl, rfl, rfl, rfl, ?_, rfl, rfl⟩, rfl⟩
  simp [State.accepted]

/-- HGT clips the rows (R163). -/
theorem step_hgt (h : Granted c s₀ hd done s) (hph : s.eng.ph = .hgt) :
    ∃ t, step s = .next t ∧ Granted c s₀ hd (done ++ [.height hd s₀.tgt.height]) t ∧
      t.eng.ph = .row ∧ t.eng.py.toInt = (c.rows s₀.tgt).1 ∧
      t.eng.ye.toInt = (c.rows s₀.tgt).2 := by
  obtain ⟨yb, ye, hyb, hye, he⟩ := fillReadsHeight s.eng.command s hph (h.answered hk _) h.wires
  refine ⟨_, step_of_exec (h.rst hr) (by simp [hph]) he, ?_, rfl, ?_, ?_⟩
  · obtain rfl := h.handle
    rw [← h.height]
    exact h.issue _ _ rfl rfl rfl rfl
  · rw [hyb, ← h.rows]
    rfl
  · rw [hye, ← h.rows]
    rfl

/-- ROW opens a row of the buffer and clips its columns (R164). -/
theorem step_row_opens (h : Granted c s₀ hd done s) (hph : s.eng.ph = .row)
    (hrow : s.eng.py.toInt < s.eng.ye.toInt) (h0 : 0 ≤ s.eng.py.toInt)
    (hbuf : s.eng.py.toInt < s₀.tgt.height.toInt) {j : Int} (hj : s.eng.py.toInt = j) :
    ∃ t, step s = .next t ∧
      Granted c s₀ hd (done ++ [.rowBounds hd (BitVec.ofInt 16 j) (s₀.tgt.boundsAt j.toNat).1
        (s₀.tgt.boundsAt j.toNat).2]) t ∧
      t.eng.ph = .pix ∧ t.eng.py = s.eng.py ∧ t.eng.ye = s.eng.ye ∧
      t.eng.px.toInt = (c.columns s₀.tgt j).1 ∧ t.eng.xe.toInt = (c.columns s₀.tgt j).2 := by
  subst hj
  have hport : toPort s.eng.py.toInt = some (BitVec.ofInt 16 s.eng.py.toInt) :=
    toPort_eq_some.2 ⟨h0, hbuf.trans (coord_toInt_bounds _).2, rfl⟩
  have hnat : (BitVec.ofInt 16 s.eng.py.toInt).toNat = s.eng.py.toInt.toNat := by
    have := toPort_toNat hport
    omega
  obtain ⟨xb, xe, hxb, hxe, he⟩ := (fillOpensRow s.eng.command s hph h.wires).2 _ _ _ hrow h0
    (toPort_toInt hport) (by rw [hnat, h.boundsAt]) (hk.minX_nonneg_of_row h0 hbuf)
    (h.answered hk _)
  refine ⟨_, step_of_exec (h.rst hr) (by simp [hph]) he, ?_, rfl, rfl, rfl, ?_, ?_⟩
  · obtain rfl := h.handle
    exact h.issue _ _ rfl rfl rfl rfl
  · rw [hxb, ← h.columns]
    rfl
  · rw [hxe, ← h.columns]
    rfl

/-- PIX runs a pixel in the row's bounds (R165). -/
theorem step_pix_pixel (h : Granted c s₀ hd done s) (hph : s.eng.ph = .pix) {j col : Int}
    (hj : s.eng.py.toInt = j) (hpx : s.eng.px.toInt = col) (hcol : col < s.eng.xe.toInt)
    (h0 : 0 ≤ j) (hbuf : j < s₀.tgt.height.toInt)
    (hmn : (s₀.tgt.boundsAt j.toNat).1.toInt ≤ col)
    (hmx : col ≤ (s₀.tgt.boundsAt j.toNat).2.toInt) :
    ∃ t, step s = .next t ∧
      Granted c s₀ hd (done ++ c.pixelTrace s₀.eng.fmt s₀.eng.lut hd j col
        (done.foldl Txn.memoryAfter s₀.tgt.mem)) t ∧
      t.eng.ph = .pix ∧ t.eng.py = s.eng.py ∧ t.eng.ye = s.eng.ye ∧ t.eng.xe = s.eng.xe ∧
      t.eng.px.toInt = col + 1 := by
  subst hj hpx
  have hcol0 : 0 ≤ s.eng.px.toInt := (hk.minX_nonneg_of_row h0 hbuf).trans hmn
  have hcol1 : s.eng.px.toInt < 32768 := hmx.trans_lt (coord_toInt_bounds _).2
  have hport : toPort s.eng.py.toInt = some (BitVec.ofInt 16 s.eng.py.toInt) :=
    toPort_eq_some.2 ⟨h0, hbuf.trans (coord_toInt_bounds _).2, rfl⟩
  obtain ⟨i, hi⟩ := exists_toPort_pixelOffset s.eng.fmt hcol0 hcol1
  have hbyte : s.tgt.hasByte (byteAddress (BitVec.ofInt 16 s.eng.py.toInt) i) = true := by
    rw [h.hasByte, ← (toPort_eq_some.1 hi).2.2, h.fmt]
    exact hk.hasByte_of_pixel h0 hbuf hmn hmx
  have he := exec_pixel s.eng.command hph h.wires hcol hport hi (h.silent.trans hk.answers) hbyte
    rfl
  refine ⟨_, step_of_exec (h.rst hr) (by simp [hph]) he, ?_, hph, rfl, rfl, rfl, ?_⟩
  · obtain rfl := h.command
    obtain rfl := h.handle
    rw [← h.mem, ← h.fmt, ← h.lut]
    exact h.issue _ _ rfl rfl rfl rfl
  · exact wide_succ_toInt (by omega)

/-- REL releases the target and RSP responds SUCCESS (R166, R167). -/
theorem completes (h : Granted c s₀ hd done s) (hph : s.eng.ph = .rel) :
    ∃ t, Reaches 2 s t ∧ Completed s₀ (done ++ [.release hd]) t := by
  obtain rfl := h.handle
  have hrel := step_of_exec (h.rst hr) (by simp [hph])
    (fillReleases s.eng.command s hph (h.answered hk _) h.wires)
  refine ⟨_, .cons hrel (.single (step_of_exec (h.rst hr) nofun
    (fillResponds.2.2 _ _ rfl h.wires))), rfl, h.fmt, h.lut, ?_, ?_, ?_⟩
  · simp [h.host]
  · simp [h.tgt, List.foldl_append]
  · simp [h.trace]

end Granted

end Sys2Proof.Machine
end

section
/-! The run of a granted fill (R159, R169, R170, R171): a row's columns ascending, the rows
ascending, and the whole fill. -/

namespace Sys2Proof.Machine

/-! ## The numbers of an interval, ascending -/

theorem intRange_eq_nil {m n : Int} : Int.range m n = [] ↔ n ≤ m := by
  simp [Int.range]

/-- An interval that is not empty starts at its lower end. -/
theorem intRange_eq_cons {m n v : Int} {vs : List Int} (h : Int.range m n = v :: vs) :
    m < n ∧ m = v ∧ Int.range (m + 1) n = vs := by
  have hlt : m < n := by
    by_contra hle
    rw [intRange_eq_nil.2 (by omega)] at h
    contradiction
  have hlen : (n - m).toNat = (n - (m + 1)).toNat + 1 := by omega
  rw [Int.range, hlen, List.range_succ_eq_map, List.map_cons, List.map_map, List.cons.injEq] at h
  obtain ⟨hv, hvs⟩ := h
  refine ⟨hlt, by simpa using hv, ?_⟩
  rw [← hvs, Int.range]
  refine List.map_congr_left fun k _ => ?_
  change m + 1 + (k : Int) = m + (k.succ : Int)
  omega

theorem rowList_eq_range (c : Command) (t : Target) :
    c.rowList t = Int.range (c.rows t).1 (c.rows t).2 := by
  simp [Command.rowList, Command.rowCount, Int.range, ← List.map_eq_flatMap]

theorem columnList_eq_range (c : Command) (t : Target) (j : Int) :
    c.columnList t j = Int.range (c.columns t j).1 (c.columns t j).2 := by
  simp [Command.columnList, Command.columnCount, Int.range, ← List.map_eq_flatMap]

@[simp] theorem length_columnList (c : Command) (t : Target) (j : Int) :
    (c.columnList t j).length = c.columnCount t j := by
  simp [Command.columnList]

@[simp] theorem length_rowList (c : Command) (t : Target) :
    (c.rowList t).length = c.rowCount t := by
  simp [Command.rowList]

/-- A surviving row is a row of the buffer (R110). -/
theorem mem_rowList {c : Command} {t : Target} {j : Int} (h : j ∈ c.rowList t) :
    0 ≤ j ∧ j < t.height.toInt :=
  ((c.mem_rows_iff t j).1 (Int.mem_range_iff.1 (rowList_eq_range c t ▸ h))).2

/-- A visible column lies in its row's bounds (R112). -/
theorem mem_columnList {c : Command} {t : Target} {j col : Int} (h : col ∈ c.columnList t j) :
    (t.boundsAt j.toNat).1.toInt ≤ col ∧ col ≤ (t.boundsAt j.toNat).2.toInt :=
  ((c.mem_columns_iff t col j).1 (Int.mem_range_iff.1 (columnList_eq_range c t j ▸ h))).2

/-- A visible column of a row of the buffer is one the port carries (R62). -/
theorem Target.KeepsDuties.column_on_port {c : Command} {t : Target} {fmt : PixelFormat}
    (hk : t.KeepsDuties fmt) {j col : Int} (h0 : 0 ≤ j) (hj : j < t.height.toInt)
    (h : col ∈ c.columnList t j) : 0 ≤ col ∧ col < 32768 := by
  obtain ⟨hmn, hmx⟩ := mem_columnList h
  exact ⟨(hk.minX_nonneg_of_row h0 hj).trans hmn, hmx.trans_lt (coord_toInt_bounds _).2⟩

namespace Granted

variable {c : Command} {s₀ : State} {hd : Handle}
variable (hr : s₀.host.rst = false) (hk : s₀.tgt.KeepsDuties s₀.eng.fmt)

include hr hk

/-- PIX runs the columns left in the row, one step each, and closes the row. -/
theorem run_columns {j : Int} (h0 : 0 ≤ j) (hbuf : j < s₀.tgt.height.toInt) {cols : List Int}
    (hbounds : ∀ col ∈ cols, (s₀.tgt.boundsAt j.toNat).1.toInt ≤ col ∧
      col ≤ (s₀.tgt.boundsAt j.toNat).2.toInt)
    {done : List Txn} {s : State} (h : Granted c s₀ hd done s) (hph : s.eng.ph = .pix)
    (hj : s.eng.py.toInt = j) (hcols : Int.range s.eng.px.toInt s.eng.xe.toInt = cols) :
    ∃ t, Reaches (cols.length + 1) s t ∧
      Granted c s₀ hd (done ++ c.columnsTrace s₀.eng.fmt s₀.eng.lut hd j cols
        (done.foldl Txn.memoryAfter s₀.tgt.mem)) t ∧
      t.eng.ph = .row ∧ t.eng.py.toInt = j + 1 ∧ t.eng.ye = s.eng.ye := by
  induction cols generalizing done s with
  | nil =>
    obtain ⟨t, hst, ht, hrow, hpy, hye⟩ :=
      h.step_pix_done hr hph (intRange_eq_nil.1 hcols) (hj.symm ▸ hbuf)
    exact ⟨t, .single hst, by simpa using ht, hrow, hj ▸ hpy, hye⟩
  | cons col cols ih =>
    obtain ⟨hlt, hpx, hrest⟩ := intRange_eq_cons hcols
    obtain ⟨⟨hmn, hmx⟩, hbounds⟩ := List.forall_mem_cons.1 hbounds
    obtain ⟨u, hsu, hu, huph, hupy, huye, huxe, hupx⟩ :=
      h.step_pix_pixel hr hk hph hj hpx (hpx ▸ hlt) h0 hbuf hmn hmx
    obtain ⟨t, hut, ht, hrow, hpy, hye⟩ := ih hbounds hu huph (hupy ▸ hj)
      (by rw [hupx, huxe, ← hpx, hrest])
    refine ⟨t, .cons hsu hut, ?_, hrow, hpy, hye.trans huye⟩
    rwa [columnsTrace_cons, ← List.append_assoc, ← List.foldl_append]

/-- ROW runs the rows left, two steps and its columns each, and leaves the scan. -/
theorem run_rows {js : List Int} (hbuf : ∀ j ∈ js, 0 ≤ j ∧ j < s₀.tgt.height.toInt)
    {done : List Txn} {s : State} (h : Granted c s₀ hd done s) (hph : s.eng.ph = .row)
    (hjs : Int.range s.eng.py.toInt s.eng.ye.toInt = js) :
    ∃ t, Reaches (2 * js.length + (js.map (c.columnCount s₀.tgt)).sum + 1) s t ∧
      Granted c s₀ hd (done ++ c.rowsTrace s₀.eng.fmt s₀.eng.lut s₀.tgt hd js
        (done.foldl Txn.memoryAfter s₀.tgt.mem)) t ∧
      t.eng.ph = .rel := by
  induction js generalizing done s with
  | nil =>
    obtain ⟨t, hst, ht, hrel⟩ := h.step_row_done hr hph (intRange_eq_nil.1 hjs)
    exact ⟨t, .single hst, by simpa using ht, hrel⟩
  | cons j js ih =>
    obtain ⟨hlt, hj, hrest⟩ := intRange_eq_cons hjs
    obtain ⟨⟨h0, hlast⟩, hbuf⟩ := List.forall_mem_cons.1 hbuf
    obtain ⟨u, hsu, hu, huph, hupy, huye, hupx, huxe⟩ :=
      h.step_row_opens hr hk hph hlt (hj ▸ h0) (hj ▸ hlast) hj
    obtain ⟨v, huv, hv, hvph, hvpy, hvye⟩ := hu.run_columns hr hk h0 hlast
      (fun _ => mem_columnList) huph (hupy ▸ hj) (cols := c.columnList s₀.tgt j)
      (by rw [hupx, huxe, columnList_eq_range])
    obtain ⟨t, hvt, ht, hrel⟩ := ih hbuf hv hvph (by rw [hvpy, hvye, huye, ← hj, hrest])
    refine ⟨t, ?_, ?_, hrel⟩
    · convert Reaches.cons hsu (huv.trans hvt) using 1
      simp only [List.length_cons, List.map_cons, List.sum_cons, length_columnList]
      omega
    · simpa [rowsTrace_cons, List.foldl_append] using ht

end Granted

/-- A fill presented to a target that grants it and keeps its duties completes with the trace of the
big-step view, in as many steps (R169 to R171). -/
theorem granted_fill_completes {c : Command} {s : State} {d : Descriptor} {ds : List Descriptor}
    {hd : Handle} (hr : s.host.rst = false) (hph : s.eng.ph = .idle) (hp : s.host.program = d :: ds)
    (hdec : decode (.command d) = .ok c.instr) (hk : s.tgt.KeepsDuties s.eng.fmt)
    (hg : s.tgt.WillGrant hd) :
    ∃ t, Reaches (c.stepCount s.tgt) s t ∧
      Completed s (c.trace s.eng.fmt s.eng.lut s.tgt hd) t := by
  obtain ⟨r, hacq, hrg, hrph⟩ := Granted.step_acq (c := c) hr hk hg
  obtain ⟨u, hsu, hu, huph, hupy, huye⟩ := hrg.step_hgt hr hk hrph
  obtain ⟨v, huv, hv, hvph⟩ := hu.run_rows hr hk (js := c.rowList s.tgt) (fun _ => mem_rowList) huph
    (by rw [hupy, huye, rowList_eq_range])
  obtain ⟨t, hvt, ht⟩ := hv.completes hr hk hvph
  refine ⟨t, ?_, by simpa [Command.trace] using ht⟩
  convert Reaches.cons (step_of_accepted hr hph hp hdec) (.cons hacq (.cons hsu (huv.trans hvt)))
    using 1
  rw [length_rowList]
  unfold Command.stepCount Command.pixelCount
  omega

end Sys2Proof.Machine
end

section
/-! The trace of a granted fill (R170, R171): its sites, how many there are, and the handle each
transaction carries. -/

namespace Sys2Proof.Machine

/-- What a 16-bit port field holds of a number the port carries (R84). -/
theorem ofInt_toInt_of_port {v : Int} (h0 : 0 ≤ v) (h1 : v < 32768) :
    (BitVec.ofInt 16 v).toInt = v :=
  toPort_toInt (toPort_eq_some.2 ⟨h0, h1, rfl⟩)

/-! ## The sites -/

section Sites

variable (c : Command) (fmt : PixelFormat) (lut : Vector Threshold 64) (hd : Handle)

theorem pixelTrace_sites {j col : Int} (hj0 : 0 ≤ j) (hj1 : j < 32768) (hcol0 : 0 ≤ col)
    (hcol1 : col < 32768) (m : Memory) :
    (c.pixelTrace fmt lut hd j col m).map Txn.site = pixelSites fmt j col := by
  have hrow := ofInt_toInt_of_port hj0 hj1
  obtain ⟨i, hi⟩ := exists_toPort_pixelOffset fmt hcol0 hcol1
  have hoff : (BitVec.ofInt 16 (pixelOffset fmt col)).toInt = pixelOffset fmt col := by
    rw [(toPort_eq_some.1 hi).2.2, toPort_toInt hi]
  cases fmt with
  | mono =>
    rw [pixelOffset_mono] at hoff
    simp [Command.pixelTrace, pixelSites, Txn.site, hrow, hoff]
  | color =>
    rw [pixelOffset_color] at hoff
    simp [Command.pixelTrace, pixelSites, Txn.site, hrow, hoff]

theorem columnsTrace_sites {j : Int} (hj0 : 0 ≤ j) (hj1 : j < 32768) {cols : List Int}
    (hcols : ∀ col ∈ cols, 0 ≤ col ∧ col < 32768) (m : Memory) :
    (c.columnsTrace fmt lut hd j cols m).map Txn.site = cols.flatMap (pixelSites fmt j) := by
  induction cols generalizing m with
  | nil => rfl
  | cons col cols ih =>
    obtain ⟨⟨h0, h1⟩, hcols⟩ := List.forall_mem_cons.1 hcols
    rw [columnsTrace_cons, List.map_append, pixelTrace_sites c fmt lut hd hj0 hj1 h0 h1, ih hcols,
      List.flatMap_cons]

theorem rowsTrace_sites {t : Target} (hk : t.KeepsDuties fmt) {js : List Int}
    (hjs : ∀ j ∈ js, 0 ≤ j ∧ j < t.height.toInt) (m : Memory) :
    (c.rowsTrace fmt lut t hd js m).map Txn.site = js.flatMap (c.rowSites fmt t) := by
  induction js generalizing m with
  | nil => rfl
  | cons j js ih =>
    obtain ⟨⟨h0, hlt⟩, hjs⟩ := List.forall_mem_cons.1 hjs
    have h1 : j < 32768 := hlt.trans (coord_toInt_bounds _).2
    rw [rowsTrace_cons, List.map_cons, List.map_append,
      columnsTrace_sites c fmt lut hd h0 h1 (fun _ => hk.column_on_port h0 hlt), ih hjs,
      List.flatMap_cons, Command.rowSites]
    simp [Txn.site, ofInt_toInt_of_port h0 h1]

/-- The trace asks for what R170 lists, in that order. -/
theorem trace_sites {t : Target} (hk : t.KeepsDuties fmt) :
    (c.trace fmt lut t hd).map Txn.site = c.sites fmt t := by
  simp [Command.trace, Command.sites, Txn.site,
    rowsTrace_sites c fmt lut hd hk fun _ => mem_rowList]

end Sites

/-! ## The counts -/

/-- How many transactions a pixel takes: a read and a write, or a write (R129, R143). -/
def pixelAccesses : PixelFormat → Nat
  | .mono => 2
  | .color => 1

theorem length_pixelSites (fmt : PixelFormat) (j col : Int) :
    (pixelSites fmt j col).length = pixelAccesses fmt := by
  cases fmt <;> rfl

/-- A row is one ROW_BOUNDS and the accesses of its visible pixels (R170). -/
theorem length_rowSites (c : Command) (fmt : PixelFormat) (t : Target) (j : Int) :
    (c.rowSites fmt t j).length = c.columnCount t j * pixelAccesses fmt + 1 := by
  simp [Command.rowSites, List.length_flatMap, length_pixelSites]

theorem transactionCount_eq (c : Command) (fmt : PixelFormat) (t : Target) :
    c.transactionCount fmt t = 3 + c.rowCount t + c.pixelCount t * pixelAccesses fmt := by
  cases fmt with
  | mono => rw [Command.transactionCount, pixelAccesses, Nat.mul_comm]
  | color => rw [Command.transactionCount, pixelAccesses, Nat.mul_one]

/-- The list of R170 is as long as R171 counts. -/
theorem length_sites (c : Command) (fmt : PixelFormat) (t : Target) :
    (c.sites fmt t).length = c.transactionCount fmt t := by
  rw [transactionCount_eq, Command.pixelCount, ← List.sum_map_mul_right]
  simp only [Command.sites, List.length_append, List.length_cons, List.length_nil,
    List.length_flatMap, length_rowSites, List.sum_map_add, List.map_const', List.sum_replicate,
    length_rowList, smul_eq_mul]
  omega

/-! ## The handle -/

section Handle

variable (c : Command) (fmt : PixelFormat) (lut : Vector Threshold 64) (hd : Handle)

theorem pixelTrace_handle (j col : Int) (m : Memory) :
    ∀ x ∈ c.pixelTrace fmt lut hd j col m, x.handle = some hd := by
  cases fmt with
  | mono => simp [Command.pixelTrace, Txn.handle]
  | color => simp [Command.pixelTrace, Txn.handle]

theorem columnsTrace_handle (j : Int) (cols : List Int) (m : Memory) :
    ∀ x ∈ c.columnsTrace fmt lut hd j cols m, x.handle = some hd := by
  induction cols generalizing m with
  | nil => simp
  | cons col cols ih =>
    rw [columnsTrace_cons]
    exact List.forall_mem_append.2 ⟨pixelTrace_handle c fmt lut hd j col m, ih _⟩

theorem rowsTrace_handle (t : Target) (js : List Int) (m : Memory) :
    ∀ x ∈ c.rowsTrace fmt lut t hd js m, x.handle = some hd := by
  induction js generalizing m with
  | nil => simp
  | cons j js ih =>
    rw [rowsTrace_cons]
    exact List.forall_mem_cons.2 ⟨rfl,
      List.forall_mem_append.2 ⟨columnsTrace_handle c fmt lut hd j _ m, ih _⟩⟩

/-- Every transaction of the trace but ACQUIRE carries the handle granted (R76). -/
theorem trace_handle (t : Target) {x : Txn} (hx : x ∈ c.trace fmt lut t hd)
    (hkind : x.kind ≠ .acquire) : x.handle = some hd := by
  simp only [Command.trace, List.mem_append, List.mem_cons, List.not_mem_nil, or_false] at hx
  obtain ((rfl | rfl) | hrow) | rfl := hx
  · exact absurd rfl hkind
  · rfl
  · exact rowsTrace_handle c fmt lut hd t _ _ x hrow
  · rfl

end Handle

/-- Settles O50: the run issues the trace of the big-step view, whose sites are those of R170. -/
theorem grantedFillTrace : Obligations.GrantedFillTrace := by
  intro c s d ds hd hr hph hp hdec hk hg
  obtain ⟨t, hrun, ht⟩ := granted_fill_completes hr hph hp hdec hk hg
  have hsites := trace_sites c s.eng.fmt s.eng.lut hd hk
  refine ⟨t, hrun, ht.trace, by rw [ht.host], hsites, ?_, fun _ => trace_handle c _ _ hd s.tgt⟩
  rw [← length_sites, ← hsites, List.length_map]

end Sys2Proof.Machine
end

section
/-! What a fill paints, bit by bit (R156, R172): the byte after it, and after the writes of some
of its pixels, holds the colour of each painted pixel and keeps every other bit. -/

namespace Sys2Proof.Machine

/-! ## The bit of a pixel -/

/-- The column of the pixel that bit `n` of the byte at address `a` belongs to (R58 to R60). -/
def bitColumn (fmt : PixelFormat) (a n : Nat) : Int :=
  match fmt with
  | .mono => 8 * addressOffset a + n
  | .color => addressOffset a

/-- Bit `n` of its byte, where pixel (col, j) is painted (R156). -/
def Command.paintedBit (c : Command) (fmt : PixelFormat) (lut : Vector Threshold 64) (col j : Int)
    (n : Nat) : Bool :=
  match fmt with
  | .mono => c.bitOf lut col j
  | .color => (c.byteOf lut col j).getLsbD n

/-- The byte at address `a` became `new` when the pixels of `V` were painted: their bits hold the
colour, and every other bit is kept. -/
def Command.Paints (c : Command) (fmt : PixelFormat) (lut : Vector Threshold 64)
    (V : Int → Int → Prop) (a : Nat) (old new : Byte) : Prop :=
  ∀ n : Nat, n < 8 →
    (V (bitColumn fmt a n) (addressRow a) →
      new.getLsbD n = c.paintedBit fmt lut (bitColumn fmt a n) (addressRow a) n) ∧
    (¬ V (bitColumn fmt a n) (addressRow a) → new.getLsbD n = old.getLsbD n)

namespace Command.Paints

variable {c c' : Command} {fmt : PixelFormat} {lut : Vector Threshold 64}
  {V V' : Int → Int → Prop} {a : Nat} {old mid new new' : Byte}

/-- The pixels painted and the byte before determine the byte after. -/
theorem unique (h : c.Paints fmt lut V a old new) (h' : c.Paints fmt lut V a old new') :
    new = new' := by
  refine BitVec.eq_of_getLsbD_eq fun n hn => ?_
  by_cases hV : V (bitColumn fmt a n) (addressRow a)
  · rw [(h n hn).1 hV, (h' n hn).1 hV]
  · rw [(h n hn).2 hV, (h' n hn).2 hV]

/-- Painting one set and then another is painting their union (R172). -/
theorem trans (h : c.Paints fmt lut V a old mid) (h' : c.Paints fmt lut V' a mid new) :
    c.Paints fmt lut (fun col j => V col j ∨ V' col j) a old new := by
  intro n hn
  refine ⟨fun hV => ?_, fun hV => ?_⟩
  · by_cases hV' : V' (bitColumn fmt a n) (addressRow a)
    · exact (h' n hn).1 hV'
    · rw [(h' n hn).2 hV', (h n hn).1 (hV.resolve_right hV')]
  · obtain ⟨hV, hV'⟩ := not_or.1 hV
    rw [(h' n hn).2 hV', (h n hn).2 hV]

/-- Painting no pixel changes nothing. -/
theorem refl (hV : ∀ col j, ¬ V col j) (old : Byte) : c.Paints fmt lut V a old old :=
  fun _ _ => ⟨fun h => absurd h (hV _ _), fun _ => rfl⟩

theorem congr (h : c.Paints fmt lut V a old new) (hV : ∀ col j, V col j ↔ V' col j) :
    c.Paints fmt lut V' a old new := by
  simpa only [Command.Paints, hV] using h

/-- What is painted depends on the command's colour only. -/
theorem of_colour (h : c.Paints fmt lut V a old new) (hc : (c.r, c.g, c.b) = (c'.r, c'.g, c'.b)) :
    c'.Paints fmt lut V a old new := by
  obtain ⟨hr, hg, hb⟩ := by simpa using hc
  simpa only [Command.Paints, Command.paintedBit, Command.bitOf, Command.byteOf, hr, hg, hb] using h

end Command.Paints

/-! ## The big-step function -/

/-- Bits `0` up to `m - 1` replaced one after the other, where `p` says so, and the others kept. -/
theorem getLsbD_foldl_mergeBit (p f : Nat → Bool) (old : Byte) (m : Nat) {n : Nat} (hn : n < 8) :
    ((List.range m).foldl (fun byte k => if p k then mergeBit byte k (f k) else byte)
      old).getLsbD n = if n < m ∧ p n = true then f n else old.getLsbD n := by
  induction m with
  | zero => simp
  | succ m ih =>
    rw [List.range_succ, List.foldl_append, List.foldl_cons, List.foldl_nil]
    split
    · next hp =>
      rw [getLsbD_mergeBit _ _ _ hn, ih]
      grind
    · next hp =>
      rw [ih]
      grind

/-- The byte after a granted fill is the byte before with the visible pixels painted (R156). -/
theorem Command.byteAfter_paints (c : Command) (fmt : PixelFormat) (lut : Vector Threshold 64)
    (t : Target) (a : Nat) (old : Byte) :
    c.Paints fmt lut (fun col j => c.visible t col j = true) a old
      (c.byteAfter fmt lut t a old) := by
  intro n hn
  cases fmt with
  | mono =>
    rw [Command.byteAfter,
      getLsbD_foldl_mergeBit (fun k => c.visible t (8 * addressOffset a + k) (addressRow a))
        (fun k => c.bitOf lut (8 * addressOffset a + k) (addressRow a)) old 8 hn]
    simp +contextual [bitColumn, Command.paintedBit, hn]
  | color =>
    simp +contextual [Command.byteAfter, bitColumn, Command.paintedBit]

/-- Settles O59: both sides paint the same pixels in the same colour. -/
theorem fillIdempotentAndTiles : Obligations.FillIdempotentAndTiles := by
  intro c c' u fmt lut t a old
  have hfill := c.byteAfter_paints fmt lut t a old
  refine ⟨?_, fun hc hc' hunion => ?_⟩
  · have htwice := hfill.trans (c.byteAfter_paints fmt lut t a _)
    exact (htwice.congr fun _ _ => or_self_iff).unique hfill
  · have hboth := (hfill.of_colour hc).trans ((c'.byteAfter_paints fmt lut t a _).of_colour hc')
    refine (hboth.congr fun col j => ?_).unique (u.byteAfter_paints fmt lut t a old)
    rw [hunion, Bool.or_eq_true]

end Sys2Proof.Machine
end

section
/-! What the transactions of a granted fill do to pixel memory (R156, R169): those of a pixel paint
it, and those of the whole fill paint the visible set. -/

namespace Sys2Proof.Machine

/-- Memory became `m'` when the pixels of `V` were painted. -/
def Command.PaintsMemory (c : Command) (fmt : PixelFormat) (lut : Vector Threshold 64)
    (V : Int → Int → Prop) (m m' : Memory) : Prop :=
  ∀ a : Nat, c.Paints fmt lut V a (Memory.read m a) (Memory.read m' a)

/-- Transactions keep the canonical form. -/
theorem wf_foldl_memoryAfter {m : Memory} (h : Memory.wf m = true) (txns : List Txn) :
    Memory.wf (txns.foldl Txn.memoryAfter m) = true := by
  induction txns generalizing m with
  | nil => exact h
  | cons x txns ih =>
    refine ih ?_
    cases x with
    | rowWrite _ _ _ v => exact Memory.wf_write h _ v
    | _ => exact h

/-! ## One pixel -/

theorem byteAddress_ofInt {j i : Int} (hj0 : 0 ≤ j) (hj1 : j < 32768) (hi0 : 0 ≤ i)
    (hi1 : i < 32768) :
    (byteAddress (BitVec.ofInt 16 j) (BitVec.ofInt 16 i) : Int) = j * 65536 + i := by
  have hj := toPort_toNat (toPort_eq_some.2 ⟨hj0, hj1, rfl⟩)
  have hi := toPort_toNat (toPort_eq_some.2 ⟨hi0, hi1, rfl⟩)
  unfold byteAddress
  push_cast
  rw [hj, hi]

/-- A bit belongs to a pixel where its byte is the pixel's and, in `MONO`, it is the pixel's bit in
it (R58 to R60). -/
theorem bitColumn_eq_iff {fmt : PixelFormat} {a n : Nat} {j col : Int} (hn : n < 8) (hj0 : 0 ≤ j)
    (hj1 : j < 32768) (hcol0 : 0 ≤ col) (hcol1 : col < 32768) :
    (bitColumn fmt a n = col ∧ addressRow a = j) ↔
      byteAddress (BitVec.ofInt 16 j) (BitVec.ofInt 16 (pixelOffset fmt col)) = a ∧
        (fmt = .mono → n = monoBit col) := by
  have hoff0 := pixelOffset_nonneg fmt hcol0
  have hoff1 : pixelOffset fmt col < 32768 := by
    obtain ⟨i, hi⟩ := exists_toPort_pixelOffset fmt hcol0 hcol1
    exact (toPort_eq_some.1 hi).2.1
  have haddr := byteAddress_ofInt hj0 hj1 hoff0 hoff1
  rw [← Int.natCast_inj, haddr]
  cases fmt with
  | mono =>
    simp only [bitColumn, addressRow, addressOffset, pixelOffset_mono, monoOffset, monoBit,
      forall_const]
    omega
  | color =>
    simp only [bitColumn, addressRow, addressOffset, pixelOffset_color, colorOffset, reduceCtorEq,
      false_imp_iff, and_true]
    omega

section Painting

variable (c : Command) (fmt : PixelFormat) (lut : Vector Threshold 64) (hd : Handle)

/-- The byte that a pixel's transactions write, given the byte before (R129, R143). -/
def Command.pixelByte (col j : Int) (old : Byte) : Byte :=
  match fmt with
  | .mono => mergeBit old (monoBit col) (c.bitOf lut col j)
  | .color => c.byteOf lut col j

theorem pixelTrace_memoryAfter (j col : Int) (m : Memory) :
    (c.pixelTrace fmt lut hd j col m).foldl Txn.memoryAfter m =
      Memory.write m (byteAddress (BitVec.ofInt 16 j) (BitVec.ofInt 16 (pixelOffset fmt col)))
        (c.pixelByte fmt lut col j (Memory.read m
          (byteAddress (BitVec.ofInt 16 j) (BitVec.ofInt 16 (pixelOffset fmt col))))) := by
  cases fmt <;> rfl

theorem getLsbD_pixelByte (col j : Int) (old : Byte) {n : Nat} (hn : n < 8) :
    (c.pixelByte fmt lut col j old).getLsbD n =
      if fmt = .mono → n = monoBit col then c.paintedBit fmt lut col j n else old.getLsbD n := by
  cases fmt with
  | mono => simp [Command.pixelByte, Command.paintedBit, getLsbD_mergeBit _ _ _ hn]
  | color => simp [Command.pixelByte, Command.paintedBit]

/-- The transactions of a pixel paint that pixel. -/
theorem pixelTrace_paints {j col : Int} (hj0 : 0 ≤ j) (hj1 : j < 32768) (hcol0 : 0 ≤ col)
    (hcol1 : col < 32768) {m : Memory} (hwf : Memory.wf m = true) :
    c.PaintsMemory fmt lut (fun x y => x = col ∧ y = j) m
      ((c.pixelTrace fmt lut hd j col m).foldl Txn.memoryAfter m) := by
  intro a n hn
  have hbit := bitColumn_eq_iff (fmt := fmt) (a := a) hn hj0 hj1 hcol0 hcol1
  rw [pixelTrace_memoryAfter, Memory.read_write hwf]
  refine ⟨fun hV => ?_, fun hV => ?_⟩
  · obtain ⟨ha, hmono⟩ := hbit.1 hV
    rw [if_pos ha, getLsbD_pixelByte c fmt lut col j _ hn, if_pos hmono, hV.1, hV.2]
  · split
    · next ha =>
      have hmono : ¬ (fmt = .mono → n = monoBit col) := fun h => hV (hbit.2 ⟨ha, h⟩)
      rw [getLsbD_pixelByte c fmt lut col j _ hn, if_neg hmono, ha]
    · rfl

/-! ## A row and the whole fill -/

/-- The transactions of a row's columns paint them. -/
theorem columnsTrace_paints {j : Int} (hj0 : 0 ≤ j) (hj1 : j < 32768) {cols : List Int}
    (hcols : ∀ col ∈ cols, 0 ≤ col ∧ col < 32768) {m : Memory} (hwf : Memory.wf m = true) :
    c.PaintsMemory fmt lut (fun x y => x ∈ cols ∧ y = j) m
      ((c.columnsTrace fmt lut hd j cols m).foldl Txn.memoryAfter m) := by
  induction cols generalizing m with
  | nil => exact fun _ => .refl (by simp) _
  | cons col cols ih =>
    obtain ⟨⟨h0, h1⟩, hcols⟩ := List.forall_mem_cons.1 hcols
    intro a
    rw [columnsTrace_cons, List.foldl_append]
    refine ((pixelTrace_paints c fmt lut hd hj0 hj1 h0 h1 hwf a).trans
      (ih hcols (wf_foldl_memoryAfter hwf _) a)).congr fun x y => ?_
    rw [List.mem_cons, or_and_right]

/-- The transactions of these rows paint their visible columns. -/
theorem rowsTrace_paints {t : Target} (hk : t.KeepsDuties fmt) {js : List Int}
    (hjs : ∀ j ∈ js, 0 ≤ j ∧ j < t.height.toInt) {m : Memory} (hwf : Memory.wf m = true) :
    c.PaintsMemory fmt lut (fun x y => y ∈ js ∧ x ∈ c.columnList t y) m
      ((c.rowsTrace fmt lut t hd js m).foldl Txn.memoryAfter m) := by
  induction js generalizing m with
  | nil => exact fun _ => .refl (by simp) _
  | cons j js ih =>
    obtain ⟨⟨h0, hlt⟩, hjs⟩ := List.forall_mem_cons.1 hjs
    have h1 : j < 32768 := hlt.trans (coord_toInt_bounds _).2
    intro a
    rw [rowsTrace_cons, List.foldl_cons, memoryAfter_rowBounds, List.foldl_append]
    refine ((columnsTrace_paints c fmt lut hd h0 h1 (fun _ => hk.column_on_port h0 hlt) hwf a).trans
      (ih hjs (wf_foldl_memoryAfter hwf _) a)).congr fun x y => ?_
    rw [List.mem_cons, or_and_right]
    refine or_congr ⟨?_, ?_⟩ Iff.rfl
    · rintro ⟨hx, rfl⟩
      exact ⟨rfl, hx⟩
    · rintro ⟨rfl, hx⟩
      exact ⟨hx, rfl⟩

/-- The lists of surviving rows and of their visible columns hold the visible set (R118, R159). -/
theorem mem_lists_iff_visible (t : Target) (col j : Int) :
    (j ∈ c.rowList t ∧ col ∈ c.columnList t j) ↔ c.visible t col j = true := by
  rw [rowList_eq_range, columnList_eq_range, Int.mem_range_iff, Int.mem_range_iff, Command.visible,
    decide_eq_true_eq, and_assoc]

/-- The trace of a granted fill turns each byte into what the big-step function says (R156). -/
theorem trace_memoryAfter {t : Target} (hk : t.KeepsDuties fmt) (hwf : Memory.wf t.mem = true)
    (a : Nat) :
    Memory.read ((c.trace fmt lut t hd).foldl Txn.memoryAfter t.mem) a =
      c.byteAfter fmt lut t a (Memory.read t.mem a) := by
  have hrows := (rowsTrace_paints c fmt lut hd hk (fun _ => mem_rowList) hwf a).congr
    (mem_lists_iff_visible c t)
  refine Command.Paints.unique ?_ (c.byteAfter_paints fmt lut t a _)
  simpa [Command.trace, List.foldl_append] using hrows

end Painting

/-- Settles O49: the run leaves memory as the trace does, which paints the visible set. -/
theorem grantedFillAgrees : Obligations.GrantedFillAgrees := by
  intro c s d ds hd hr hph hp hdec hwf hk hg
  obtain ⟨t, hrun, ht⟩ := granted_fill_completes hr hph hp hdec hk hg
  refine ⟨t, hrun, ht.ph, ht.fmt, ht.lut, ?_, ?_, ?_, fun a => ?_⟩
  · rw [ht.host]
    simp [hp]
  · rw [ht.tgt]
  · rw [ht.tgt]
    exact wf_foldl_memoryAfter hwf _
  · rw [ht.tgt]
    exact trace_memoryAfter c _ _ hd hk hwf a

end Sys2Proof.Machine
end

section
/-! Monochrome pixel writes commute, and those of one byte merge into one (R159, R212). -/

namespace Sys2Proof.Machine

/-! ## Two pixels -/

/-- The read-modify-write of one bit of the byte at an address (R129). -/
def Memory.mergeAt (m : Memory) (a k : Nat) (on : Bool) : Memory :=
  Memory.write m a (mergeBit (Memory.read m a) k on)

/-- The bits of a memory after one of them is replaced. -/
theorem Memory.getLsbD_read_mergeAt {m : Memory} (h : Memory.wf m = true) (a k : Nat) (on : Bool)
    (b : Nat) {n : Nat} (hn : n < 8) :
    (Memory.read (m.mergeAt a k on) b).getLsbD n =
      if a = b ∧ n = k then on else (Memory.read m b).getLsbD n := by
  rw [Memory.mergeAt, Memory.read_write h]
  split
  · next hab => simp [getLsbD_mergeBit _ _ _ hn, hab]
  · next hab => simp [hab]

/-- Replacing two different bits gives the same memory in either order (R159). -/
theorem Memory.mergeAt_comm {m : Memory} (h : Memory.wf m = true) {a a' k k' : Nat} (on on' : Bool)
    (hne : (a, k) ≠ (a', k')) :
    (m.mergeAt a k on).mergeAt a' k' on' = (m.mergeAt a' k' on').mergeAt a k on := by
  have hwf (b i : Nat) (v : Bool) : Memory.wf (m.mergeAt b i v) = true := Memory.wf_write h _ _
  refine Memory.ext (Memory.wf_write (hwf ..) _ _) (Memory.wf_write (hwf ..) _ _) fun b => ?_
  refine BitVec.eq_of_getLsbD_eq fun n hn => ?_
  rw [getLsbD_read_mergeAt (hwf ..) _ _ _ _ hn, getLsbD_read_mergeAt h _ _ _ _ hn,
    getLsbD_read_mergeAt (hwf ..) _ _ _ _ hn, getLsbD_read_mergeAt h _ _ _ _ hn]
  split
  · next hb' =>
    have hb : ¬ (a = b ∧ n = k) := by
      rintro ⟨rfl, rfl⟩
      exact hne (by rw [hb'.1, hb'.2])
    rw [if_neg hb]
  · rfl

/-! ## The bits of one byte, merged -/

theorem foldl_digits_lt (f : Nat → Bool) (m : Nat) :
    (List.range m).foldl (fun v k => v + 2 ^ k * (f k).toNat) 0 < 2 ^ m := by
  induction m with
  | zero => simp
  | succ m ih =>
    have hdigit := Nat.mul_le_mul_left (2 ^ m) (Bool.toNat_le (f m))
    rw [List.range_succ, List.foldl_append, List.foldl_cons, List.foldl_nil, Nat.pow_succ]
    omega

/-- A sum of weights has the binary digits it is the sum of. -/
theorem testBit_foldl_digits (f : Nat → Bool) (m n : Nat) :
    ((List.range m).foldl (fun v k => v + 2 ^ k * (f k).toNat) 0).testBit n =
      (decide (n < m) && f n) := by
  induction m with
  | zero => simp
  | succ m ih =>
    rw [List.range_succ, List.foldl_append, List.foldl_cons, List.foldl_nil, Nat.add_comm,
      Nat.testBit_two_pow_mul_add _ (foldl_digits_lt f m), ih]
    obtain hlt | rfl | hgt := Nat.lt_trichotomy n m
    · simp [hlt, hlt.trans (Nat.lt_succ_self m)]
    · cases f n <;> simp
    · have hdigit : (f m).toNat < 2 ^ (n - m) :=
        (Bool.toNat_lt (f m)).trans_le (Nat.le_self_pow (by omega) 2)
      rw [if_neg (by omega), Nat.testBit_lt_two_pow hdigit]
      simp [hgt.not_ge]

/-- The bits that a merge of bits `lo` up to `lo + n − 1` leaves (R212). -/
theorem getLsbD_mergeBits (old : Byte) (lo n : Nat) (on : Nat → Bool) {i : Nat} (hi : i < 8) :
    (mergeBits old lo n on).getLsbD i =
      if lo ≤ i ∧ i < lo + n then on i else old.getLsbD i := by
  rw [mergeBits, BitVec.getLsbD_ofNat, testBit_foldl_digits]
  simp [hi]

/-- The bits that one write of each of these bits leaves. -/
theorem getLsbD_foldl_mergeBit_from (old : Byte) (lo n : Nat) (on : Nat → Bool) {i : Nat}
    (hi : i < 8) :
    ((List.range n).foldl (fun byte k => mergeBit byte (lo + k) (on (lo + k))) old).getLsbD i =
      if lo ≤ i ∧ i < lo + n then on i else old.getLsbD i := by
  induction n with
  | zero => simp
  | succ n ih =>
    rw [List.range_succ, List.foldl_append, List.foldl_cons, List.foldl_nil,
      getLsbD_mergeBit _ _ _ hi, ih]
    grind

/-- Settles O60: two different bits are replaced in either order, and one by one or at once. -/
theorem pixelWritesCommuteAndMerge : Obligations.PixelWritesCommuteAndMerge := by
  refine ⟨fun m a a' k k' on on' hwf _ _ hne => Memory.mergeAt_comm hwf on on' hne,
    fun old lo n on _ => BitVec.eq_of_getLsbD_eq fun i hi => ?_⟩
  rw [getLsbD_mergeBits old lo n on hi, getLsbD_foldl_mergeBit_from old lo n on hi]

end Sys2Proof.Machine
end

section
/-! A busy engine (R21, R208): each step is the latched FILL's, whatever stands on the command port. -/

namespace Sys2Proof.Machine

/-- In every phase but IDLE the presented operands reach no phase operation (R208). -/
theorem exec_eq_of_busy (c c' : Command) {s : State} (hph : s.eng.ph ≠ .idle) :
    exec c.instr s = exec c'.instr s := by
  simp only [exec_instr, execFill]
  split
  · contradiction
  all_goals rfl

/-- Settles O7: a busy engine's step is the latched command's. -/
theorem stepContinuesFill : Obligations.StepContinuesFill :=
  fun _ hr hph => step_of_busy hr hph

/-- Settles O39: only IDLE reads the presented command, and the frame of a busy step holds the operand
latches and the host's program. -/
theorem busyEngineIgnoresPort : Obligations.BusyEngineIgnoresPort := by
  refine fun c c' s hph => ⟨exec_eq_of_busy c c' hph, fun t h => ?_⟩
  obtain ⟨-, -, hcommand, -, -, -, -, -, -, -, -, hprogram, -⟩ := fillStepFrame c s t h
  exact ⟨hcommand hph, hprogram⟩

end Sys2Proof.Machine
end

section
/-! Every fill in progress ends (R216). Beside a target that keeps its duties each phase has a next
state; each step lowers a measure, of the phase, the rows left and the columns left; and the only step
into IDLE is the response. -/

namespace Sys2Proof.Machine

/-! ## The ends of the phase graph (R160) -/

/-- Only RSP leads to IDLE, and it leads nowhere else. -/
theorem Phase.eq_idle_iff_of_mem_successors {ph ph' : Phase} (h : ph' ∈ ph.successors) :
    ph' = .idle ↔ ph = .rsp := by
  cases ph <;> simp only [Phase.successors, List.mem_cons, List.not_mem_nil, or_false] at h
  case acq | row | pix =>
    obtain rfl | rfl := h <;> simp
  all_goals simp [h]

/-- Only IDLE leads to ACQ. -/
theorem Phase.eq_idle_of_acq_mem_successors {ph : Phase} (h : .acq ∈ ph.successors) :
    ph = .idle := by
  cases ph <;> simp [Phase.successors] at h ⊢

/-! ## The measure -/

/-- What is left of a fill: the phases to the response, then twice the rows left, and one more while the
row at PY is still to be opened, then the columns left in an open row. -/
def Engine.remaining (e : Engine) : Nat ×ₗ Nat ×ₗ Nat :=
  match e.ph with
  | .idle => toLex (0, toLex (0, 0))
  | .rsp => toLex (1, toLex (0, 0))
  | .rel => toLex (2, toLex (0, 0))
  | .row => toLex (3, toLex (2 * (e.ye.toInt - e.py.toInt).toNat + 1, 0))
  | .pix => toLex (3, toLex (2 * (e.ye.toInt - e.py.toInt).toNat,
      (e.xe.toInt - e.px.toInt).toNat))
  | .hgt => toLex (4, toLex (0, 0))
  | .acq => toLex (5, toLex (0, 0))

/-- Opening a row, or leaving the scan, lowers the measure (R164). -/
theorem phaseRow_lowers_remaining {s t : State} (hph : s.eng.ph = .row)
    (h : phaseRow s = .next t) : t.eng.remaining < s.eng.remaining := by
  obtain ⟨-, ho⟩ | ⟨-, rfl⟩ := phaseRow_next.1 h
  · obtain ⟨y, -, -, -, rfl⟩ := openRow_next.1 ho
    simp [Engine.remaining, hph, afterBounds, Prod.Lex.toLex_lt_toLex]
  · simp [Engine.remaining, hph, Prod.Lex.toLex_lt_toLex]

/-- A pixel leaves one column fewer, and closing a row one row fewer (R165). -/
theorem phasePix_lowers_remaining {s t : State} (hi : Inv s) (hph : s.eng.ph = .pix)
    (h : phasePix s = .next t) : t.eng.remaining < s.eng.remaining := by
  obtain ⟨hcol, heng, -⟩ | ⟨-, rfl⟩ := phasePix_cases h
  · have hxe := wide_toInt_bounds s.eng.xe
    have hpx : (s.eng.px + 1).toInt = s.eng.px.toInt + 1 := wide_succ_toInt (by omega)
    simp only [Engine.remaining, hph, heng, hpx, Prod.Lex.toLex_lt_toLex, true_and]
    omega
  · have hrow := (hi.columns hph).row_remains
    have hye := wide_toInt_bounds s.eng.ye
    have hpy : (s.eng.py + 1).toInt = s.eng.py.toInt + 1 := wide_succ_toInt (by omega)
    simp only [Engine.remaining, hph, State.settle_eng, State.latch_eng, hpy,
      Prod.Lex.toLex_lt_toLex, true_and]
    omega

/-- Every step of a fill in progress lowers the measure. -/
theorem fill_lowers_remaining {c : Command} {s t : State} (hi : Inv s) (hbusy : s.eng.ph ≠ .idle)
    (h : exec c.instr s = .next t) : t.eng.remaining < s.eng.remaining := by
  rcases execFill_cases h with
    ⟨hph, h⟩ | ⟨hph, h⟩ | ⟨hph, h⟩ | ⟨hph, h⟩ | ⟨hph, h⟩ | ⟨hph, h⟩ | ⟨hph, h⟩
  · exact absurd hph hbusy
  · obtain ⟨-, _ | hd, -, rfl⟩ := phaseAcq_next h <;>
      simp [Engine.remaining, hph, Prod.Lex.toLex_lt_toLex]
  · obtain ⟨-, rfl⟩ := phaseHgt_next.1 h
    simp [Engine.remaining, hph, afterHeight, Prod.Lex.toLex_lt_toLex]
  · exact phaseRow_lowers_remaining hph h
  · exact phasePix_lowers_remaining hi hph h
  · obtain ⟨-, rfl⟩ := phaseRel_next.1 h
    simp [Engine.remaining, hph, Prod.Lex.toLex_lt_toLex]
  · cases h
    simp [Engine.remaining, hph, Prod.Lex.toLex_lt_toLex]

/-! ## A fill that can go on -/

/-- A busy engine that meets the invariant beside a target that keeps its duties, the answer to a coming
ACQUIRE among them. -/
structure InProgress (s : State) : Prop where
  inv : Inv s
  released : s.host.rst = false
  busy : s.eng.ph ≠ .idle
  duties : s.tgt.KeepsDuties s.eng.fmt
  answer : s.eng.ph = .acq → (∃ hd, s.tgt.WillGrant hd) ∨ s.tgt.WillRefuse

/-- The duties T2, T4, T6 and T7 speak of nothing that a step of FILL changes. -/
theorem fill_keeps_duties {c : Command} {s t : State} (hk : s.tgt.KeepsDuties s.eng.fmt)
    (h : exec c.instr s = .next t) : t.tgt.KeepsDuties t.eng.fmt := by
  obtain ⟨-, hfmt, -, hheight, hbounds, hholes, hsilent⟩ := fill_keeps_configuration h
  obtain ⟨hanswers, hminx, hbacked⟩ := hk
  constructor
  · rw [hsilent, hanswers]
  · simpa only [Target.boundsAt, hheight, hbounds] using hminx
  · simpa only [Target.boundsAt, Target.hasByte, hheight, hbounds, hholes, hfmt] using hbacked

namespace InProgress

variable {s t : State}

theorem answered (h : InProgress s) (k : ReqKind) : k ∉ s.tgt.silent := by
  simp [h.duties.answers]

/-- ROW has a next state: a row before YE is a row of the buffer, whose minX is not negative (T6). -/
theorem exists_phaseRow (h : InProgress s) (hph : s.eng.ph = .row) :
    ∃ t, phaseRow s = .next t := by
  by_cases hrow : s.eng.py.toInt < s.eng.ye.toInt
  · obtain ⟨h0, hbuf⟩ := (h.inv.rows (.inl hph)).row_in_buffer hrow
    obtain ⟨y, hy⟩ := exists_toPort h0 (hbuf.trans (coord_toInt_bounds _).2)
    have hmn := h.duties.minX_nonneg y.toNat (by rwa [toPort_toNat hy])
    exact ⟨_, phaseRow_next.2 (.inl ⟨hrow, openRow_next.2 ⟨y, hy, h.answered _, hmn, rfl⟩⟩)⟩
  · exact ⟨_, phaseRow_next.2 (.inr ⟨hrow, rfl⟩)⟩

/-- PIX has a next state: a column before XE is a visible pixel, whose byte exists (T7). -/
theorem exists_phasePix (h : InProgress s) (hph : s.eng.ph = .pix) :
    ∃ t, phasePix s = .next t := by
  by_cases hcol : s.eng.px.toInt < s.eng.xe.toInt
  · obtain ⟨hvisible, hx0, hx1, hy1, -⟩ := pixelIsVisible s h.inv hph hcol
    obtain ⟨-, -, hy0, hbuf, -, -, hmn, hmx⟩ := (Command.visible_iff _ _ _ _).1 hvisible
    obtain ⟨row, hy⟩ := exists_toPort hy0 hy1
    obtain ⟨i, hi⟩ := exists_toPort_pixelOffset s.eng.fmt hx0 hx1
    have hbyte := h.duties.hasByte_of_pixel hy0 hbuf hmn hmx
    rw [byteAddress_of_toPort hy hi] at hbyte
    have hpix := exec_pixel s.eng.command hph h.inv.wires hcol hy hi h.duties.answers hbyte rfl
    rw [exec_of_phasePix _ hph] at hpix
    exact ⟨_, hpix⟩
  · exact ⟨_, phasePix_next.2 (.inr ⟨hcol, rfl⟩)⟩

/-- No phase of a fill in progress stops. -/
theorem exists_exec (h : InProgress s) (c : Command) : ∃ t, exec c.instr s = .next t := by
  cases hph : s.eng.ph with
  | idle => exact absurd hph h.busy
  | acq =>
    obtain ⟨hgranted, hrefused⟩ := fillAcquires c s hph (h.answered _) h.inv.wires
    obtain ⟨hd, hg⟩ | hr := h.answer hph
    · exact ⟨_, hgranted hd hg⟩
    · exact ⟨_, hrefused hr⟩
  | hgt => exact ⟨_, (exec_of_hgt c hph).trans (phaseHgt_next.2 ⟨h.answered _, rfl⟩)⟩
  | row =>
    rw [exec_of_phaseRow c hph]
    exact h.exists_phaseRow hph
  | pix =>
    rw [exec_of_phasePix c hph]
    exact h.exists_phasePix hph
  | rel => exact ⟨_, (exec_of_rel c hph).trans (phaseRel_next.2 ⟨h.answered _, rfl⟩)⟩
  | rsp => exact ⟨_, exec_of_rsp c hph⟩

/-- A fill in progress stays one until it responds. -/
theorem continues {c : Command} (h : InProgress s) (he : exec c.instr s = .next t)
    (hbusy : t.eng.ph ≠ .idle) : InProgress t where
  inv := fill_keeps_inv h.inv he
  released := by
    obtain ⟨-, -, -, -, -, -, -, -, -, hrst, -⟩ := fillStepFrame c s t he
    rw [hrst, h.released]
  busy := hbusy
  duties := fill_keeps_duties h.duties he
  answer hacq := by
    have hsucc := stepFollowsPhaseGraph c s t he
    rw [hacq] at hsucc
    exact absurd (Phase.eq_idle_of_acq_mem_successors hsucc) h.busy

/-- A fill in progress reaches IDLE with one more response, by induction on what is left of it. -/
theorem responds (h : InProgress s) :
    ∃ (k : Nat) (t : State), Reaches k s t ∧ t.eng.ph = .idle ∧
      t.host.responses.length = s.host.responses.length + 1 := by
  induction hm : s.eng.remaining using WellFoundedLT.induction generalizing s with
  | ind m ih =>
    obtain ⟨u, he⟩ := h.exists_exec s.eng.command
    have hstep := step_of_exec h.released h.busy he
    have hlower := fill_lowers_remaining h.inv h.busy he
    have hend := Phase.eq_idle_iff_of_mem_successors (stepFollowsPhaseGraph _ s u he)
    have hresponses := fill_responses he
    by_cases hu : u.eng.ph = .idle
    · exact ⟨1, u, .single hstep, hu, by simp [hresponses, hend.1 hu]⟩
    · obtain ⟨k, t, hut, hidle, hcount⟩ := ih _ (hm ▸ hlower) (h.continues he hu) rfl
      refine ⟨k + 1, t, .cons hstep hut, hidle, ?_⟩
      rw [hcount, hresponses, if_neg (mt hend.2 hu), List.append_nil]

end InProgress

/-- Settles O53: the state is that of a fill in progress. -/
theorem fillTerminates : Obligations.FillTerminates :=
  fun _ hi hr hbusy hk hanswer => InProgress.responds ⟨hi, hr, hbusy, hk, hanswer⟩

end Sys2Proof.Machine
end

section
/-! The request codes that the decoder refuses by name (R84, U11). -/

namespace Sys2Proof

/-- From code 6 on no branch of the decoder answers an operation (U11, log 14). -/
theorem decodeRequest_of_reserved {q : RequestWord} (hk : 6 ≤ (q.extractLsb' 0 3).toNat) :
    decodeRequest q = .error (.reservedCode (q.extractLsb' 0 3)) := by
  dsimp only [decodeRequest]
  split
  case h_7 => rfl
  all_goals omega

/-- Settles O5: a request word is decoded by the request decoder. -/
theorem reservedCodesRefused : Obligations.ReservedCodesRefused :=
  fun _ hk => decodeRequest_of_reserved hk

end Sys2Proof
end

section
/-! The steps that run no command: an idle engine with none presented (R161), and a step under reset
(R200 to R204). -/

namespace Sys2Proof.Machine

/-- Under reset a step is the reset move (R200). -/
theorem step_of_reset {s : State} (hr : s.host.rst = true) : step s = s.underReset := by
  rw [step, if_pos hr]

/-- While a fill is in progress there is no reset move (R204, U5, D21). -/
theorem underReset_of_busy {s : State} (hph : s.eng.ph ≠ .idle) :
    s.underReset = .refused .resetDuringFill := by
  unfold State.underReset
  split
  · contradiction
  all_goals rfl

/-- Settles O8: the branch of the step without reset, in IDLE, with an empty program. -/
theorem idleEngineWaits : Obligations.IdleEngineWaits := by
  intro s hr hph hp
  simp [step, hr, hph, hp]

/-- Settles O10: the idle engine becomes `State.resetEngine`, whose fields are those stated; in every
other phase the reset move refuses. -/
theorem resetInputResetsEngine : Obligations.ResetInputResetsEngine := by
  refine fun s hr => ⟨fun hph => ⟨s.resetEngine, ?_, ?_⟩, fun hph => ?_⟩
  · rw [step_of_reset hr, underReset_next]
    exact ⟨hph, rfl⟩
  · simp
  · rw [step_of_reset hr, underReset_of_busy hph]

end Sys2Proof.Machine
end
